-- ==== Sys2Proof/Word.lean ====
section
/-! DEFINITION. The word types of binary-boi (spec 00_scope.md R6): 8-bit data and registers, and
the 16-bit width shared by the instruction word, the program counter and the stack pointer. -/

namespace Sys2Proof

/-- A u8: a register, the status register or one memory cell (R6, R8). -/
abbrev Byte := BitVec 8

/-- A u16: an instruction word, the program counter or the stack pointer (R6, R8). -/
abbrev Word := BitVec 16

end Sys2Proof
end

