-- ==== Sys2Proof/Syntax.lean ====
section
/-! DEFINITION. The instructions of binary-boi: one constructor per row of spec/opcode_table.json,
in the table's order, with the operands that its row's rule gives it. Bits an encoding ignores
(30_encoding.md R63) are no operand. -/

namespace Sys2Proof

/-- The eight registers, x[0] to x[7] (10_state.md R20). -/
inductive Reg where
  | r0 | r1 | r2 | r3 | r4 | r5 | r6 | r7
  deriving DecidableEq, Repr

/-- Source address low (R21). -/
abbrev Reg.sal : Reg := .r4
/-- Source address high (R21). -/
abbrev Reg.sah : Reg := .r5
/-- Destination address low (R21). -/
abbrev Reg.dal : Reg := .r6
/-- Destination address high (R21). -/
abbrev Reg.dah : Reg := .r7

/-- The opcode class, bits 15-14 (30_encoding.md R62, R66). -/
inductive Cls where
  | arithRR | arithRI | memStack | branch
  deriving DecidableEq, Repr

/-- The sub-opcode, bits 13-11, the index of each family's 8-entry table (R62, R67). -/
inductive Sub where
  | s0 | s1 | s2 | s3 | s4 | s5 | s6 | s7
  deriving DecidableEq, Repr

/-- The selector of PUSH, POP and MVS, bits 1-0, the index of a 4-entry table (R62, R68). -/
inductive Sel where
  | sel0 | sel1 | sel2 | sel3
  deriving DecidableEq, Repr

/-- An instruction. Immediates, shift counts, segment displacements and JMP targets are the 8-bit
field as the encoding holds it; a signed branch displacement is the integer it stands for (R64). -/
inductive Instr where
  -- class 0, register/register arithmetic (41_arith_rr.md)
  | addRR (rd rs : Reg)
  | subRR (rd rs : Reg)
  | xorRR (rd rs : Reg)
  | andRR (rd rs : Reg)
  | orRR (rd rs : Reg)
  | mul
  | div
  | nopRR
  -- class 1, register/immediate arithmetic (42_arith_ri.md)
  | addRI (rd : Reg) (imm : Byte)
  | subRI (rd : Reg) (imm : Byte)
  | xorRI (rd : Reg) (imm : Byte)
  | andRI (rd : Reg) (imm : Byte)
  | orRI (rd : Reg) (imm : Byte)
  | lsl (rd : Reg) (n : Byte)
  | lsr (rd : Reg) (n : Byte)
  | nopRI
  -- class 2, memory and stack (43_memory_stack.md)
  | ldr (rd : Reg) (disp : Byte)
  | str (rd : Reg) (disp : Byte)
  | pushReg (rd : Reg)
  | pushSR
  | pushPC
  | pushNop
  | popReg (rd : Reg)
  | popSR
  | popPC
  | popNop
  | mov (rd rs : Reg)
  | mvsNop
  | mvsSR (rd : Reg)
  | mvsPCL (rd : Reg)
  | mvsPCH (rd : Reg)
  | nopMem6
  | nopMem7
  -- class 3, branches (44_branch.md)
  | jmp (t : Byte)
  | jle (rd rs : Reg) (d : Int)
  | jge (rd rs : Reg) (d : Int)
  | jeq (rd rs : Reg) (d : Int)
  | jlz (d : Int)
  | jgz (d : Int)
  | jrl (d : Int)
  | nopBranch
  deriving DecidableEq, Repr

end Sys2Proof
end

