-- ==== Sys2Proof/WellFormed.lean ====
section
/-! DEFINITION. Which instructions the encoding can hold. Register operands and 8-bit fields are in
range by their types; a signed displacement is an integer and is checked here against the width of
its field (spec 30_encoding.md R64, R72). -/

namespace Sys2Proof

/-- A displacement of JRL, JLZ, JGZ: -128 to +127 bytes (R64). -/
def fitsD8 (d : Int) : Bool := decide (-128 ≤ d) && decide (d ≤ 127)

/-- A displacement of JLE, JGE, JEQ: -16 to +15 bytes (R64). -/
def fitsD5 (d : Int) : Bool := decide (-16 ≤ d) && decide (d ≤ 15)

/-- Whether every operand fits its field. -/
def Instr.wf (i : Instr) : Bool :=
  match i with
  | .addRR _ _ | .subRR _ _ | .xorRR _ _ | .andRR _ _ | .orRR _ _ => true
  | .mul | .div | .nopRR => true
  | .addRI _ _ | .subRI _ _ | .xorRI _ _ | .andRI _ _ | .orRI _ _ => true
  | .lsl _ _ | .lsr _ _ | .nopRI => true
  | .ldr _ _ | .str _ _ => true
  | .pushReg _ | .pushSR | .pushPC | .pushNop => true
  | .popReg _ | .popSR | .popPC | .popNop => true
  | .mov _ _ | .mvsNop | .mvsSR _ | .mvsPCL _ | .mvsPCH _ => true
  | .nopMem6 | .nopMem7 => true
  | .jmp _ => true
  | .jle _ _ d | .jge _ _ d | .jeq _ _ d => fitsD5 d
  | .jlz d | .jgz d | .jrl d => fitsD8 d
  | .nopBranch => true

/-- An instruction that some word encodes. -/
abbrev WellFormed (i : Instr) : Prop := i.wf = true

end Sys2Proof
end

