-- ==== Sys2Proof/Decode.lean ====
section
/-! DEFINITION. The decoder, total on every word and on any list of bytes, then the encoder and the
opcode map (spec 30_encoding.md R60-R71). Decoding follows the spec's dispatch: a 4-entry table on
the class, an 8-entry table on the sub-opcode, a 4-entry table on the selector of PUSH, POP, MVS. -/

namespace Sys2Proof

/-- Why a list of bytes holds no instruction. No word is ever rejected (R69). -/
inductive DecodeError where
  /-- Fewer than the 2 bytes that every instruction has (R60). -/
  | truncated
  deriving DecidableEq, Repr

/-- The word of an instruction stored in two bytes: little-endian (20_memory.md R43). -/
def wordOfBytes (lo hi : Byte) : Word := hi ++ lo

/-- The two bytes of a word in memory order, the low byte at the lower address (R43). -/
def bytesOfWord (w : Word) : List Byte := [w.extractLsb' 0 8, w.extractLsb' 8 8]

/-- The register that a 3-bit field names (10_state.md R22). -/
def Reg.ofBits (b : BitVec 3) : Reg :=
  match b.getLsbD 2, b.getLsbD 1, b.getLsbD 0 with
  | false, false, false => .r0
  | false, false, true => .r1
  | false, true, false => .r2
  | false, true, true => .r3
  | true, false, false => .r4
  | true, false, true => .r5
  | true, true, false => .r6
  | true, true, true => .r7

/-- The index of a register, as a 3-bit field holds it. -/
def Reg.toBits (r : Reg) : BitVec 3 :=
  match r with
  | .r0 => 0
  | .r1 => 1
  | .r2 => 2
  | .r3 => 3
  | .r4 => 4
  | .r5 => 5
  | .r6 => 6
  | .r7 => 7

/-! ### Fields of a word (R62) -/

/-- cls = w[15:14]. -/
def fieldCls (w : Word) : Cls :=
  match w.getLsbD 15, w.getLsbD 14 with
  | false, false => .arithRR
  | false, true => .arithRI
  | true, false => .memStack
  | true, true => .branch

/-- sub = w[13:11]. -/
def fieldSub (w : Word) : Sub :=
  match w.getLsbD 13, w.getLsbD 12, w.getLsbD 11 with
  | false, false, false => .s0
  | false, false, true => .s1
  | false, true, false => .s2
  | false, true, true => .s3
  | true, false, false => .s4
  | true, false, true => .s5
  | true, true, false => .s6
  | true, true, true => .s7

/-- sel = w[1:0]. -/
def fieldSel (w : Word) : Sel :=
  match w.getLsbD 1, w.getLsbD 0 with
  | false, false => .sel0
  | false, true => .sel1
  | true, false => .sel2
  | true, true => .sel3

/-- rd = w[10:8]. -/
def fieldRd (w : Word) : Reg := Reg.ofBits (w.extractLsb' 8 3)

/-- rs = w[7:5]. -/
def fieldRs (w : Word) : Reg := Reg.ofBits (w.extractLsb' 5 3)

/-- imm8 = w[7:0]. -/
def fieldImm8 (w : Word) : Byte := w.extractLsb' 0 8

/-- sext_8(imm8) (R64; two's complement, 00_scope.md R8). -/
def fieldD8 (w : Word) : Int := (w.extractLsb' 0 8).toInt

/-- sext_5(d5), d5 = w[4:0] (R64). -/
def fieldD5 (w : Word) : Int := (w.extractLsb' 0 5).toInt

/-! ### Dispatch (R66-R68) -/

/-- The table of class 0 (R67). -/
def decodeArithRR (w : Word) : Instr :=
  match fieldSub w with
  | .s0 => .addRR (fieldRd w) (fieldRs w)
  | .s1 => .subRR (fieldRd w) (fieldRs w)
  | .s2 => .xorRR (fieldRd w) (fieldRs w)
  | .s3 => .andRR (fieldRd w) (fieldRs w)
  | .s4 => .orRR (fieldRd w) (fieldRs w)
  | .s5 => .mul
  | .s6 => .div
  | .s7 => .nopRR

/-- The table of class 1 (R67). -/
def decodeArithRI (w : Word) : Instr :=
  match fieldSub w with
  | .s0 => .addRI (fieldRd w) (fieldImm8 w)
  | .s1 => .subRI (fieldRd w) (fieldImm8 w)
  | .s2 => .xorRI (fieldRd w) (fieldImm8 w)
  | .s3 => .andRI (fieldRd w) (fieldImm8 w)
  | .s4 => .orRI (fieldRd w) (fieldImm8 w)
  | .s5 => .lsl (fieldRd w) (fieldImm8 w)
  | .s6 => .lsr (fieldRd w) (fieldImm8 w)
  | .s7 => .nopRI

/-- The selector table of PUSH (R68). -/
def decodePush (w : Word) : Instr :=
  match fieldSel w with
  | .sel0 => .pushReg (fieldRd w)
  | .sel1 => .pushSR
  | .sel2 => .pushPC
  | .sel3 => .pushNop

/-- The selector table of POP (R68). -/
def decodePop (w : Word) : Instr :=
  match fieldSel w with
  | .sel0 => .popReg (fieldRd w)
  | .sel1 => .popSR
  | .sel2 => .popPC
  | .sel3 => .popNop

/-- The selector table of MVS (R68). -/
def decodeMvs (w : Word) : Instr :=
  match fieldSel w with
  | .sel0 => .mvsNop
  | .sel1 => .mvsSR (fieldRd w)
  | .sel2 => .mvsPCL (fieldRd w)
  | .sel3 => .mvsPCH (fieldRd w)

/-- The table of class 2 (R67). -/
def decodeMemStack (w : Word) : Instr :=
  match fieldSub w with
  | .s0 => .ldr (fieldRd w) (fieldImm8 w)
  | .s1 => .str (fieldRd w) (fieldImm8 w)
  | .s2 => decodePush w
  | .s3 => decodePop w
  | .s4 => .mov (fieldRd w) (fieldRs w)
  | .s5 => decodeMvs w
  | .s6 => .nopMem6
  | .s7 => .nopMem7

/-- The table of class 3 (R67). -/
def decodeBranch (w : Word) : Instr :=
  match fieldSub w with
  | .s0 => .jmp (fieldImm8 w)
  | .s1 => .jle (fieldRd w) (fieldRs w) (fieldD5 w)
  | .s2 => .jge (fieldRd w) (fieldRs w) (fieldD5 w)
  | .s3 => .jeq (fieldRd w) (fieldRs w) (fieldD5 w)
  | .s4 => .jlz (fieldD8 w)
  | .s5 => .jgz (fieldD8 w)
  | .s6 => .jrl (fieldD8 w)
  | .s7 => .nopBranch

/-- The instruction a word encodes; every word encodes one (R65, R66, R69). -/
def decodeWord (w : Word) : Instr :=
  match fieldCls w with
  | .arithRR => decodeArithRR w
  | .arithRI => decodeArithRI w
  | .memStack => decodeMemStack w
  | .branch => decodeBranch w

/-- The instruction at the front of a list of bytes, and the bytes after it. A decoder always
consumes 2 bytes (R60); a list with fewer is rejected by name. -/
def decode (bytes : List Byte) : Except DecodeError (Instr × List Byte) :=
  match bytes with
  | lo :: hi :: rest => .ok (decodeWord (wordOfBytes lo hi), rest)
  | [_] => .error .truncated
  | [] => .error .truncated

/-- The instruction read from the bits w of a row of spec/opcode_table.json, laid out as memory
holds it; bits from nbits up are zero. -/
def decodeTableWord (nbits w : Nat) : Option Instr :=
  match decode (bytesOfWord (BitVec.ofNat 16 (w % 2 ^ nbits))) with
  | .ok (i, _) => some i
  | .error .truncated => none

/-! ### The encoder: the match bits of R71 with the operand fields of R62 put in; every ignored bit
is written as 0 (R72) -/

/-- rd placed in bits 10-8. -/
def putRd (r : Reg) : Word := r.toBits.setWidth 16 <<< 8

/-- rs placed in bits 7-5. -/
def putRs (r : Reg) : Word := r.toBits.setWidth 16 <<< 5

/-- imm8 placed in bits 7-0. -/
def putImm8 (b : Byte) : Word := b.setWidth 16

/-- A signed displacement placed in bits 7-0. -/
def putD8 (d : Int) : Word := (BitVec.ofInt 8 d).setWidth 16

/-- A signed displacement placed in bits 4-0. -/
def putD5 (d : Int) : Word := (BitVec.ofInt 5 d).setWidth 16

/-- The word of an instruction (R71). -/
def encode (i : Instr) : Word :=
  match i with
  | .addRR rd rs => 0x0000 ||| putRd rd ||| putRs rs
  | .subRR rd rs => 0x0800 ||| putRd rd ||| putRs rs
  | .xorRR rd rs => 0x1000 ||| putRd rd ||| putRs rs
  | .andRR rd rs => 0x1800 ||| putRd rd ||| putRs rs
  | .orRR rd rs => 0x2000 ||| putRd rd ||| putRs rs
  | .mul => 0x2800
  | .div => 0x3000
  | .nopRR => 0x3800
  | .addRI rd imm => 0x4000 ||| putRd rd ||| putImm8 imm
  | .subRI rd imm => 0x4800 ||| putRd rd ||| putImm8 imm
  | .xorRI rd imm => 0x5000 ||| putRd rd ||| putImm8 imm
  | .andRI rd imm => 0x5800 ||| putRd rd ||| putImm8 imm
  | .orRI rd imm => 0x6000 ||| putRd rd ||| putImm8 imm
  | .lsl rd n => 0x6800 ||| putRd rd ||| putImm8 n
  | .lsr rd n => 0x7000 ||| putRd rd ||| putImm8 n
  | .nopRI => 0x7800
  | .ldr rd disp => 0x8000 ||| putRd rd ||| putImm8 disp
  | .str rd disp => 0x8800 ||| putRd rd ||| putImm8 disp
  | .pushReg rd => 0x9000 ||| putRd rd
  | .pushSR => 0x9001
  | .pushPC => 0x9002
  | .pushNop => 0x9003
  | .popReg rd => 0x9800 ||| putRd rd
  | .popSR => 0x9801
  | .popPC => 0x9802
  | .popNop => 0x9803
  | .mov rd rs => 0xA000 ||| putRd rd ||| putRs rs
  | .mvsNop => 0xA800
  | .mvsSR rd => 0xA801 ||| putRd rd
  | .mvsPCL rd => 0xA802 ||| putRd rd
  | .mvsPCH rd => 0xA803 ||| putRd rd
  | .nopMem6 => 0xB000
  | .nopMem7 => 0xB800
  | .jmp t => 0xC000 ||| putImm8 t
  | .jle rd rs d => 0xC800 ||| putRd rd ||| putRs rs ||| putD5 d
  | .jge rd rs d => 0xD000 ||| putRd rd ||| putRs rs ||| putD5 d
  | .jeq rd rs d => 0xD800 ||| putRd rd ||| putRs rs ||| putD5 d
  | .jlz d => 0xE000 ||| putD8 d
  | .jgz d => 0xE800 ||| putD8 d
  | .jrl d => 0xF000 ||| putD8 d
  | .nopBranch => 0xF800

/-- The bytes of an instruction as memory holds them. -/
def encodeBytes (i : Instr) : List Byte := bytesOfWord (encode i)

/-! ### The opcode map (R71) and the bits each format reads (R63) -/

/-- One row of the opcode map: a word w encodes it when w &&& mask = pattern (R71). -/
structure OpRow where
  pattern : Word
  mask : Word
  deriving DecidableEq, Repr

/-- The 41 rows of R71, in the order of spec/opcode_table.json. -/
def opcodeMap : List OpRow :=
  [⟨0x0000, 0xF800⟩, ⟨0x0800, 0xF800⟩, ⟨0x1000, 0xF800⟩, ⟨0x1800, 0xF800⟩,
   ⟨0x2000, 0xF800⟩, ⟨0x2800, 0xF800⟩, ⟨0x3000, 0xF800⟩, ⟨0x3800, 0xF800⟩] ++
  [⟨0x4000, 0xF800⟩, ⟨0x4800, 0xF800⟩, ⟨0x5000, 0xF800⟩, ⟨0x5800, 0xF800⟩,
   ⟨0x6000, 0xF800⟩, ⟨0x6800, 0xF800⟩, ⟨0x7000, 0xF800⟩, ⟨0x7800, 0xF800⟩] ++
  [⟨0x8000, 0xF800⟩, ⟨0x8800, 0xF800⟩,
   ⟨0x9000, 0xF803⟩, ⟨0x9001, 0xF803⟩, ⟨0x9002, 0xF803⟩, ⟨0x9003, 0xF803⟩,
   ⟨0x9800, 0xF803⟩, ⟨0x9801, 0xF803⟩, ⟨0x9802, 0xF803⟩, ⟨0x9803, 0xF803⟩,
   ⟨0xA000, 0xF800⟩,
   ⟨0xA800, 0xF803⟩, ⟨0xA801, 0xF803⟩, ⟨0xA802, 0xF803⟩, ⟨0xA803, 0xF803⟩,
   ⟨0xB000, 0xF800⟩, ⟨0xB800, 0xF800⟩] ++
  [⟨0xC000, 0xF800⟩, ⟨0xC800, 0xF800⟩, ⟨0xD000, 0xF800⟩, ⟨0xD800, 0xF800⟩,
   ⟨0xE000, 0xF800⟩, ⟨0xE800, 0xF800⟩, ⟨0xF000, 0xF800⟩, ⟨0xF800, 0xF800⟩]

/-- The row of an instruction (R71). -/
def Instr.row (i : Instr) : OpRow :=
  match i with
  | .addRR _ _ => ⟨0x0000, 0xF800⟩
  | .subRR _ _ => ⟨0x0800, 0xF800⟩
  | .xorRR _ _ => ⟨0x1000, 0xF800⟩
  | .andRR _ _ => ⟨0x1800, 0xF800⟩
  | .orRR _ _ => ⟨0x2000, 0xF800⟩
  | .mul => ⟨0x2800, 0xF800⟩
  | .div => ⟨0x3000, 0xF800⟩
  | .nopRR => ⟨0x3800, 0xF800⟩
  | .addRI _ _ => ⟨0x4000, 0xF800⟩
  | .subRI _ _ => ⟨0x4800, 0xF800⟩
  | .xorRI _ _ => ⟨0x5000, 0xF800⟩
  | .andRI _ _ => ⟨0x5800, 0xF800⟩
  | .orRI _ _ => ⟨0x6000, 0xF800⟩
  | .lsl _ _ => ⟨0x6800, 0xF800⟩
  | .lsr _ _ => ⟨0x7000, 0xF800⟩
  | .nopRI => ⟨0x7800, 0xF800⟩
  | .ldr _ _ => ⟨0x8000, 0xF800⟩
  | .str _ _ => ⟨0x8800, 0xF800⟩
  | .pushReg _ => ⟨0x9000, 0xF803⟩
  | .pushSR => ⟨0x9001, 0xF803⟩
  | .pushPC => ⟨0x9002, 0xF803⟩
  | .pushNop => ⟨0x9003, 0xF803⟩
  | .popReg _ => ⟨0x9800, 0xF803⟩
  | .popSR => ⟨0x9801, 0xF803⟩
  | .popPC => ⟨0x9802, 0xF803⟩
  | .popNop => ⟨0x9803, 0xF803⟩
  | .mov _ _ => ⟨0xA000, 0xF800⟩
  | .mvsNop => ⟨0xA800, 0xF803⟩
  | .mvsSR _ => ⟨0xA801, 0xF803⟩
  | .mvsPCL _ => ⟨0xA802, 0xF803⟩
  | .mvsPCH _ => ⟨0xA803, 0xF803⟩
  | .nopMem6 => ⟨0xB000, 0xF800⟩
  | .nopMem7 => ⟨0xB800, 0xF800⟩
  | .jmp _ => ⟨0xC000, 0xF800⟩
  | .jle _ _ _ => ⟨0xC800, 0xF800⟩
  | .jge _ _ _ => ⟨0xD000, 0xF800⟩
  | .jeq _ _ _ => ⟨0xD800, 0xF800⟩
  | .jlz _ => ⟨0xE000, 0xF800⟩
  | .jgz _ => ⟨0xE800, 0xF800⟩
  | .jrl _ => ⟨0xF000, 0xF800⟩
  | .nopBranch => ⟨0xF800, 0xF800⟩

/-- The bits of a word that the instruction's format reads; the others are ignored (R63). -/
def Instr.usedBits (i : Instr) : Word :=
  match i with
  -- formats RR and MR: bits 4-0 ignored
  | .addRR _ _ | .subRR _ _ | .xorRR _ _ | .andRR _ _ | .orRR _ _ | .mov _ _ => 0xFFE0
  -- formats RR0, RI0, M0, B0: bits 10-0 ignored
  | .mul | .div | .nopRR | .nopRI | .nopMem6 | .nopMem7 | .nopBranch => 0xF800
  -- formats RI and MD: none ignored
  | .addRI _ _ | .subRI _ _ | .xorRI _ _ | .andRI _ _ | .orRI _ _ | .lsl _ _ | .lsr _ _ => 0xFFFF
  | .ldr _ _ | .str _ _ => 0xFFFF
  -- format MS: bits 7-2 ignored, and rd too when sel is not 0
  | .pushReg _ | .popReg _ => 0xFF03
  | .pushSR | .pushPC | .pushNop | .popSR | .popPC | .popNop => 0xF803
  -- format MX: bits 7-2 ignored, and rd too when sel is 0
  | .mvsSR _ | .mvsPCL _ | .mvsPCH _ => 0xFF03
  | .mvsNop => 0xF803
  -- format BA: bits 10-8 ignored
  | .jmp _ | .jlz _ | .jgz _ | .jrl _ => 0xF8FF
  -- format BC: none ignored
  | .jle _ _ _ | .jge _ _ _ | .jeq _ _ _ => 0xFFFF

end Sys2Proof
end

