-- ==== Sys2Proof/Config.lean ====
section
/-! DEFINITION. The implementation parameters (spec 00_scope.md R6). The spec fixes every one of
them, and leaves no value of any instruction open, so this file holds no free value. -/

namespace Sys2Proof

/-- MEM_SIZE: the buffer has 65535 cells, addresses 0 to 65534 (R6, R33). -/
def Config.memSize : Nat := 65535

/-- What a cell that memory does not list reads as: the buffer is zero-initialised (R33, R34). -/
def Config.unlistedByte : Byte := 0

/-- sp after construction, "all bits set" (R34). -/
def Config.resetSp : Word := 0xFFFF

/-- pc after construction; the initial prefetch does not advance it (R34, R222). -/
def Config.resetPc : Word := 0x0000

/-- How many bytes every instruction has (R60), which is also the advance of pc (R80). -/
def Config.instrBytes : Nat := 2

end Sys2Proof
end

