-- ==== Sys2Proof/Machine/State.lean ====
section
/-! DEFINITION. The state of one core, (x[0..7], sr, pc, sp, ir, mem) (spec 10_state.md R20-R35), as
plain data, its reset value (R34), and the reasons a step can stop. -/

namespace Sys2Proof.Machine

/-- The memory buffer (R33): the cells that differ from `Config.unlistedByte`, as (address, byte)
pairs with addresses strictly rising (`Memory.wf` in Machine/Ops.lean). -/
abbrev Memory := List Host.Cell

/-- The register file: eight independent bytes (R20). -/
structure RegFile where
  r0 : Byte
  r1 : Byte
  r2 : Byte
  r3 : Byte
  /-- SAL, source address low (R21). -/
  r4 : Byte
  /-- SAH, source address high (R21). -/
  r5 : Byte
  /-- DAL, destination address low (R21). -/
  r6 : Byte
  /-- DAH, destination address high (R21). -/
  r7 : Byte
  deriving DecidableEq, Repr

/-- The whole architectural state (R35: there is no other). -/
structure State where
  /-- x[0..7] (R20). -/
  regs : RegFile
  /-- The status register: Z bit 0, N bit 1, V bit 2, C bit 3, SL bit 4; bits 7-5 are plain
  storage (R24, R27). -/
  sr : Byte
  /-- The program counter (R28). -/
  pc : Word
  /-- The stack pointer: the next free byte (R31). -/
  sp : Word
  /-- The instruction latch: the word the next step executes (R32). -/
  ir : Word
  /-- The memory buffer (R33). -/
  mem : Memory
  deriving DecidableEq, Repr

/-- The faults of the core. There are none: no instruction raises an exception and every step of
every state completes (60_exceptions.md R200; 30_encoding.md R82), so the type has no constructor. -/
inductive Fault where
  deriving DecidableEq, Repr

/-- Why the model would refuse an instruction. -/
inductive Refusal where
  /-- Raised by an arm of `exec` for an instruction that has no meaning yet; safe (the model stops
  where the hardware goes on). No arm raises it: every instruction has its meaning. -/
  | notModelled (mnemonic : String)
  deriving DecidableEq, Repr

/-- Every register zero (R34). -/
def RegFile.zero : RegFile :=
  { r0 := 0, r1 := 0, r2 := 0, r3 := 0, r4 := 0, r5 := 0, r6 := 0, r7 := 0 }

/-- The state right after construction (R34; 70_reset_and_hazards.md R222): everything zero but sp,
and ir holds the word prefetched from zeroed memory. -/
def State.reset : State :=
  { regs := RegFile.zero, sr := 0x00, pc := Config.resetPc, sp := Config.resetSp,
    ir := 0x0000, mem := [] }

end Sys2Proof.Machine
end

