-- ==== Sys2Proof/Machine/Ops.lean ====
section
/-! DEFINITION. The named operations over registers and memory: the register file, the address wrap,
byte access, instruction fetch, push and pop, the prefetch that ends a step, and the host's write
between steps (spec 00_scope.md R9, R10; 20_memory.md R40-R44; 43_memory_stack.md R143;
30_encoding.md R80; 70_reset_and_hazards.md R225, R228). The core takes no exception and has none to
return from (60_exceptions.md R200, R204, R205), so no such operation is here. -/

namespace Sys2Proof.Machine

/-! ### Registers (R9, R20, R22) -/

/-- x[r]. -/
def RegFile.get (f : RegFile) (r : Reg) : Byte :=
  match r with
  | .r0 => f.r0
  | .r1 => f.r1
  | .r2 => f.r2
  | .r3 => f.r3
  | .r4 => f.r4
  | .r5 => f.r5
  | .r6 => f.r6
  | .r7 => f.r7

/-- x[r] <- v. -/
def RegFile.set (f : RegFile) (r : Reg) (v : Byte) : RegFile :=
  match r with
  | .r0 => { f with r0 := v }
  | .r1 => { f with r1 := v }
  | .r2 => { f with r2 := v }
  | .r3 => { f with r3 := v }
  | .r4 => { f with r4 := v }
  | .r5 => { f with r5 := v }
  | .r6 => { f with r6 := v }
  | .r7 => { f with r7 := v }

/-- x[r] in a state. -/
def State.reg (s : State) (r : Reg) : Byte := s.regs.get r

/-- x[r] <- v. -/
def State.setReg (s : State) (r : Reg) (v : Byte) : State := { s with regs := s.regs.set r v }

/-- sr <- v, all eight bits. -/
def State.setSr (s : State) (v : Byte) : State := { s with sr := v }

/-- pc <- v. -/
def State.setPc (s : State) (v : Word) : State := { s with pc := v }

/-- sp <- v. -/
def State.setSp (s : State) (v : Word) : State := { s with sp := v }

/-- ir <- v. -/
def State.setIr (s : State) (v : Word) : State := { s with ir := v }

/-! ### Memory (R10, R33, R40) -/

/-- phys(a) = a mod 65535: the cell that an address names (R40). -/
def phys (a : Nat) : Nat := a % Config.memSize

/-- The byte of a cell. -/
def Memory.read (k : Nat) (m : Memory) : Byte :=
  match m with
  | [] => Config.unlistedByte
  | c :: m => if c.1 = k then c.2 else Memory.read k m

/-- Memory with no entry for a cell. -/
def Memory.erase (k : Nat) (m : Memory) : Memory :=
  match m with
  | [] => []
  | c :: m => if c.1 = k then Memory.erase k m else c :: Memory.erase k m

/-- Memory with an entry for a cell, put in its place in the rising order. -/
def Memory.insert (k : Nat) (v : Byte) (m : Memory) : Memory :=
  match m with
  | [] => [(k, v)]
  | c :: m =>
    if k < c.1 then (k, v) :: c :: m
    else if k = c.1 then (k, v) :: m
    else c :: Memory.insert k v m

/-- Write one cell, keeping the canonical form: the value of an unlisted cell is not listed. -/
def Memory.write (k : Nat) (v : Byte) (m : Memory) : Memory :=
  if v = Config.unlistedByte then Memory.erase k m else Memory.insert k v m

/-- The canonical form from address lo up: addresses strictly rising and inside the buffer, and no
entry equal to what an unlisted cell reads as. -/
def Memory.wfFrom (lo : Nat) (m : Memory) : Bool :=
  match m with
  | [] => true
  | c :: m =>
    decide (lo ≤ c.1) && decide (c.1 < Config.memSize) && decide (c.2 ≠ Config.unlistedByte) &&
      Memory.wfFrom (c.1 + 1) m

/-- The canonical form of memory. -/
def Memory.wf (m : Memory) : Bool := Memory.wfFrom 0 m

/-- MemRead(a, 1) (R10). -/
def State.memRead (s : State) (a : Nat) : Byte := Memory.read (phys a) s.mem

/-- MemWrite(a, 1, v) (R10). -/
def State.memWrite (s : State) (a : Nat) (v : Byte) : State :=
  { s with mem := Memory.write (phys a) v s.mem }

/-- FetchWord(a) = MemRead(a+1, 1) : MemRead(a, 1); a+1 is the integer sum (20_memory.md R43). -/
def State.fetchWord (s : State) (a : Nat) : Word :=
  wordOfBytes (s.memRead a) (s.memRead (a + 1))

/-! ### The stack (43_memory_stack.md R143) -/

/-- Push8(v): write at sp, then decrement sp. -/
def State.push8 (s : State) (v : Byte) : State :=
  (s.memWrite s.sp.toNat v).setSp (s.sp - 1)

/-- The state after Pop8(): sp incremented. -/
def State.pop8 (s : State) : State := s.setSp (s.sp + 1)

/-- The byte Pop8() returns: the one at the incremented sp. -/
def State.popped8 (s : State) : Byte := s.memRead (s.sp + 1).toNat

/-! ### The end of a step (30_encoding.md R80) -/

/-- Latch the word at pc, as the handler left pc, then add 2 to pc. -/
def State.prefetch (s : State) : State :=
  (s.setIr (s.fetchWord s.pc.toNat)).setPc (s.pc + 2)

/-! ### The host (70_reset_and_hazards.md R225, R228) -/

/-- The host writes one byte of memory, between two steps or before the first (R228). It writes
nothing else. -/
def State.hostWrite (s : State) (k : Fin Config.memSize) (v : Byte) : State :=
  { s with mem := Memory.write k.val v s.mem }

/-- The host writes a list of bytes, in order. -/
def State.hostLoad (s : State) (image : List (Fin Config.memSize × Byte)) : State :=
  match image with
  | [] => s
  | c :: rest => State.hostLoad (s.hostWrite c.1 c.2) rest

/-- The launch state of a program: construction, then the host's writes (R225). -/
def State.launch (image : List (Fin Config.memSize × Byte)) : State :=
  State.reset.hostLoad image

end Sys2Proof.Machine
end

