-- ==== Sys2Proof/Machine/Flags.lean ====
section
/-! DEFINITION. The flags of the status register and every flag computation (spec 10_state.md R24,
R25; 41_arith_rr.md R90-R93, R105, R106; 42_arith_ri.md R125-R127). -/

namespace Sys2Proof.Machine

/-- sr.Z (R24). -/
def State.flagZ (s : State) : Bool := s.sr.getLsbD 0
/-- sr.N (R24). -/
def State.flagN (s : State) : Bool := s.sr.getLsbD 1
/-- sr.V (R24). -/
def State.flagV (s : State) : Bool := s.sr.getLsbD 2
/-- sr.C (R24). -/
def State.flagC (s : State) : Bool := s.sr.getLsbD 3

/-- One bit of a byte written, every other bit as it was (R93). -/
def putBit (i : Nat) (b : Bool) (v : Byte) : Byte :=
  (v &&& ~~~(1#8 <<< i)) ||| (if b then 1#8 <<< i else 0#8)

/-- sr.Z <- b. -/
def State.setZ (s : State) (b : Bool) : State := s.setSr (putBit 0 b s.sr)
/-- sr.N <- b. -/
def State.setN (s : State) (b : Bool) : State := s.setSr (putBit 1 b s.sr)
/-- sr.V <- b. -/
def State.setV (s : State) (b : Bool) : State := s.setSr (putBit 2 b s.sr)
/-- sr.C <- b. -/
def State.setC (s : State) (b : Bool) : State := s.setSr (putBit 3 b s.sr)

/-- What an 8-bit addition or subtraction gives (R90, R91). -/
structure AluResult where
  res : Byte
  z : Bool
  n : Bool
  v : Bool
  c : Bool
  deriving DecidableEq, Repr

/-- The sign bit, bit 7. -/
def bit7 (b : Byte) : Bool := b.getLsbD 7

/-- AluAdd(a, b) (R90). -/
def aluAdd (a b : Byte) : AluResult :=
  let s := a.toNat + b.toNat
  let res := BitVec.ofNat 8 s
  { res := res
    z := decide (res = 0)
    n := bit7 res
    v := bit7 a == bit7 b && bit7 res != bit7 a
    c := decide (256 ≤ s) }

/-- AluSub(a, b); C is the borrow (R91). -/
def aluSub (a b : Byte) : AluResult :=
  let res := a - b
  { res := res
    z := decide (res = 0)
    n := bit7 res
    v := bit7 a != bit7 b && bit7 res != bit7 a
    c := decide (a.toNat < b.toNat) }

/-- sr.{Z,N} <- AluLogic(res) (R92); also the Z and N of a shift (R126, R127). -/
def State.setZN (s : State) (res : Byte) : State := (s.setZ (decide (res = 0))).setN (bit7 res)

/-- sr.{Z,N,V,C} <- (z, n, v, c) (R93). -/
def State.setZNVC (s : State) (r : AluResult) : State :=
  (((s.setZ r.z).setN r.n).setV r.v).setC r.c

/-- LSL's result: (a * 2^n) mod 256 (R126). -/
def shiftLeft (a n : Byte) : Byte := BitVec.ofNat 8 (a.toNat * 2 ^ n.toNat)

/-- LSR's result: a div 2^n (R127). -/
def shiftRight (a n : Byte) : Byte := BitVec.ofNat 8 (a.toNat / 2 ^ n.toNat)

/-- LSL's carry for a count of 1 or more: bit 8 - n, or 0 for n above 8 (R125, R126). -/
def carryLeft (a n : Byte) : Bool := if n.toNat ≤ 8 then a.getLsbD (8 - n.toNat) else false

/-- LSR's carry for a count of 1 or more: bit n - 1, or 0 for n above 8 (R125, R127). -/
def carryRight (a n : Byte) : Bool := if n.toNat ≤ 8 then a.getLsbD (n.toNat - 1) else false

/-- The flags of a shift: Z and N always, C only for a count that is not 0 (R126, R127). -/
def State.setShiftFlags (s : State) (res n : Byte) (c : Bool) : State :=
  if n = 0 then s.setZN res else (s.setZN res).setC c

/-- The flags of MUL, from the 16-bit product p: Z, N = p[15], C (R105). -/
def State.setMulFlags (s : State) (p : Nat) : State :=
  ((s.setZ (decide (p = 0))).setN (p.testBit 15)).setC (decide (256 ≤ p))

/-- The flags of DIV by a non-zero divisor, from the quotient q: Z, and N = 0 (R106). -/
def State.setDivFlags (s : State) (q : Nat) : State := (s.setZ (decide (q = 0))).setN false

end Sys2Proof.Machine
end

