-- ==== Sys2Proof/Machine/Operands.lean ====
section
/-! DEFINITION. Operand forms: the effective addresses of LDR and STR and the values branches write
to pc (spec 43_memory_stack.md R140; 44_branch.md R170-R172). Register and 8-bit immediate operands
are used as they stand (30_encoding.md R64). -/

namespace Sys2Proof.Machine

/-- SA = x[5]:x[4] (10_state.md R21). -/
def State.segSA (s : State) : Nat := 256 * (s.reg .sah).toNat + (s.reg .sal).toNat

/-- DA = x[7]:x[6] (R21). -/
def State.segDA (s : State) : Nat := 256 * (s.reg .dah).toNat + (s.reg .dal).toNat

/-- sr.SL, the segment-link mode bit (R24, R26). -/
def State.flagSL (s : State) : Bool := s.sr.getLsbD 4

/-- EA_load: SA plus the unsigned displacement, not truncated (R140). -/
def State.eaLoad (s : State) (disp : Byte) : Nat := s.segSA + disp.toNat

/-- EA_store: DA, or SA when SL is set, plus the unsigned displacement, not truncated (R140). -/
def State.eaStore (s : State) (disp : Byte) : Nat :=
  (if s.flagSL then s.segSA else s.segDA) + disp.toNat

/-- What JMP writes to pc: its zero-extended target minus 2 (R171). -/
def jumpAbsolute (t : Byte) : Word := t.setWidth 16 - 2

/-- What a taken relative branch writes to pc: pc plus its displacement minus 2 (R170, R172). -/
def State.jumpRelative (s : State) (d : Int) : Word := s.pc + BitVec.ofInt 16 d - 2

end Sys2Proof.Machine
end

