-- ==== Sys2Proof/Machine/ArithRI.lean ====
section
/-! DEFINITION. Class 1, register/immediate arithmetic: the handlers of spec 42_arith_ri.md
R120-R128. -/

namespace Sys2Proof.Machine

/-- ADD rd, #imm8 (R120). -/
def execAddRI (rd : Reg) (imm : Byte) (s : State) : Host.Outcome State Fault Refusal :=
  let r := aluAdd (s.reg rd) imm
  .next ((s.setReg rd r.res).setZNVC r)

/-- SUB rd, #imm8 (R121). -/
def execSubRI (rd : Reg) (imm : Byte) (s : State) : Host.Outcome State Fault Refusal :=
  let r := aluSub (s.reg rd) imm
  .next ((s.setReg rd r.res).setZNVC r)

/-- XOR rd, #imm8 (R122). -/
def execXorRI (rd : Reg) (imm : Byte) (s : State) : Host.Outcome State Fault Refusal :=
  let res := s.reg rd ^^^ imm
  .next ((s.setReg rd res).setZN res)

/-- AND rd, #imm8 (R123). -/
def execAndRI (rd : Reg) (imm : Byte) (s : State) : Host.Outcome State Fault Refusal :=
  let res := s.reg rd &&& imm
  .next ((s.setReg rd res).setZN res)

/-- OR rd, #imm8 (R124). -/
def execOrRI (rd : Reg) (imm : Byte) (s : State) : Host.Outcome State Fault Refusal :=
  let res := s.reg rd ||| imm
  .next ((s.setReg rd res).setZN res)

/-- LSL rd, #n (R126). -/
def execLsl (rd : Reg) (n : Byte) (s : State) : Host.Outcome State Fault Refusal :=
  let a := s.reg rd
  let res := shiftLeft a n
  .next ((s.setReg rd res).setShiftFlags res n (carryLeft a n))

/-- LSR rd, #n (R127). -/
def execLsr (rd : Reg) (n : Byte) (s : State) : Host.Outcome State Fault Refusal :=
  let a := s.reg rd
  let res := shiftRight a n
  .next ((s.setReg rd res).setShiftFlags res n (carryRight a n))

/-- NOP, class 1 slot 7 (R128). -/
def execNopRI (s : State) : Host.Outcome State Fault Refusal := .next s

end Sys2Proof.Machine
end

