-- ==== Sys2Proof/Machine/ArithRR.lean ====
section
/-! DEFINITION. Class 0, register/register arithmetic: the handlers of spec 41_arith_rr.md R100-R107.
A handler reads its operands before it writes; the step's fetch and advance are in `step`. -/

namespace Sys2Proof.Machine

/-- ADD rd, rs (R100). -/
def execAddRR (rd rs : Reg) (s : State) : Host.Outcome State Fault Refusal :=
  let r := aluAdd (s.reg rd) (s.reg rs)
  .next ((s.setReg rd r.res).setZNVC r)

/-- SUB rd, rs (R101). -/
def execSubRR (rd rs : Reg) (s : State) : Host.Outcome State Fault Refusal :=
  let r := aluSub (s.reg rd) (s.reg rs)
  .next ((s.setReg rd r.res).setZNVC r)

/-- XOR rd, rs (R102). -/
def execXorRR (rd rs : Reg) (s : State) : Host.Outcome State Fault Refusal :=
  let res := s.reg rd ^^^ s.reg rs
  .next ((s.setReg rd res).setZN res)

/-- AND rd, rs (R103). -/
def execAndRR (rd rs : Reg) (s : State) : Host.Outcome State Fault Refusal :=
  let res := s.reg rd &&& s.reg rs
  .next ((s.setReg rd res).setZN res)

/-- OR rd, rs (R104). -/
def execOrRR (rd rs : Reg) (s : State) : Host.Outcome State Fault Refusal :=
  let res := s.reg rd ||| s.reg rs
  .next ((s.setReg rd res).setZN res)

/-- MUL: r3:r2 <- x[1] * x[0], unsigned (R105). -/
def execMul (s : State) : Host.Outcome State Fault Refusal :=
  let p := (s.reg .r1).toNat * (s.reg .r0).toNat
  .next (((s.setReg .r2 (BitVec.ofNat 8 p)).setReg .r3 (BitVec.ofNat 8 (p / 256))).setMulFlags p)

/-- DIV: r3:r2 <- x[1] div x[0], unsigned; nothing at all when x[0] = 0 (R106). -/
def execDiv (s : State) : Host.Outcome State Fault Refusal :=
  let a := (s.reg .r1).toNat
  let b := (s.reg .r0).toNat
  if b = 0 then .next s
  else
    let q := a / b
    .next (((s.setReg .r2 (BitVec.ofNat 8 q)).setReg .r3 (BitVec.ofNat 8 (q / 256))).setDivFlags q)

/-- NOP, class 0 slot 7 (R107). -/
def execNopRR (s : State) : Host.Outcome State Fault Refusal := .next s

end Sys2Proof.Machine
end

