-- ==== Sys2Proof/Machine/Branch.lean ====
section
/-! DEFINITION. Class 3, branches: the handlers of spec 44_branch.md R170-R178. A branch writes only
pc, and a branch that is not taken changes nothing (R170). -/

namespace Sys2Proof.Machine

/-- pc moved when a condition holds, nothing otherwise (R170). -/
def State.branchIf (s : State) (taken : Bool) (d : Int) : State :=
  if taken then s.setPc (s.jumpRelative d) else s

/-- JMP #t (R171). -/
def execJmp (t : Byte) (s : State) : Host.Outcome State Fault Refusal :=
  .next (s.setPc (jumpAbsolute t))

/-- JLE rd, rs, #d: unsigned (R173). -/
def execJle (rd rs : Reg) (d : Int) (s : State) : Host.Outcome State Fault Refusal :=
  .next (s.branchIf (decide ((s.reg rd).toNat ≤ (s.reg rs).toNat)) d)

/-- JGE rd, rs, #d: unsigned (R174). -/
def execJge (rd rs : Reg) (d : Int) (s : State) : Host.Outcome State Fault Refusal :=
  .next (s.branchIf (decide ((s.reg rs).toNat ≤ (s.reg rd).toNat)) d)

/-- JEQ rd, rs, #d (R175). -/
def execJeq (rd rs : Reg) (d : Int) (s : State) : Host.Outcome State Fault Refusal :=
  .next (s.branchIf (decide (s.reg rd = s.reg rs)) d)

/-- JLZ #d: taken when N = 1 (R176). -/
def execJlz (d : Int) (s : State) : Host.Outcome State Fault Refusal :=
  .next (s.branchIf s.flagN d)

/-- JGZ #d: taken when N = 0 and Z = 0 (R177). -/
def execJgz (d : Int) (s : State) : Host.Outcome State Fault Refusal :=
  .next (s.branchIf (!s.flagN && !s.flagZ) d)

/-- JRL #d: always taken (R172). -/
def execJrl (d : Int) (s : State) : Host.Outcome State Fault Refusal :=
  .next (s.setPc (s.jumpRelative d))

/-- NOP, branch slot 7 (R178). -/
def execNopBranch (s : State) : Host.Outcome State Fault Refusal := .next s

end Sys2Proof.Machine
end

