-- ==== Sys2Proof/Machine/MemStack.lean ====
section
/-! DEFINITION. Class 2, memory and stack: the handlers of spec 43_memory_stack.md R141-R158. Only
POP SR writes a flag. pc, where a handler reads it, is the address of the instruction plus 2
(10_state.md R29). -/

namespace Sys2Proof.Machine

/-- LDR rd, [#imm8]: through SA, whatever SL is (R141). -/
def execLdr (rd : Reg) (disp : Byte) (s : State) : Host.Outcome State Fault Refusal :=
  .next (s.setReg rd (s.memRead (s.eaLoad disp)))

/-- STR rd, [#imm8]: through DA, or SA when SL is set (R142). -/
def execStr (rd : Reg) (disp : Byte) (s : State) : Host.Outcome State Fault Refusal :=
  .next (s.memWrite (s.eaStore disp) (s.reg rd))

/-- PUSH rd (R144). -/
def execPushReg (rd : Reg) (s : State) : Host.Outcome State Fault Refusal :=
  .next (s.push8 (s.reg rd))

/-- PUSH SR, all eight bits (R145). -/
def execPushSR (s : State) : Host.Outcome State Fault Refusal :=
  .next (s.push8 s.sr)

/-- PUSH PC: the high byte first, so that the low byte ends at the lower address (R146). -/
def execPushPC (s : State) : Host.Outcome State Fault Refusal :=
  .next ((s.push8 (s.pc.extractLsb' 8 8)).push8 (s.pc.extractLsb' 0 8))

/-- PUSH with selector 3: no effect (R147). -/
def execPushNop (s : State) : Host.Outcome State Fault Refusal := .next s

/-- POP rd (R148). -/
def execPopReg (rd : Reg) (s : State) : Host.Outcome State Fault Refusal :=
  .next (s.pop8.setReg rd s.popped8)

/-- POP SR, all eight bits (R149). -/
def execPopSR (s : State) : Host.Outcome State Fault Refusal :=
  .next (s.pop8.setSr s.popped8)

/-- POP PC: the low byte first; no minus 2 (R150). -/
def execPopPC (s : State) : Host.Outcome State Fault Refusal :=
  .next (s.pop8.pop8.setPc (wordOfBytes s.popped8 s.pop8.popped8))

/-- POP with selector 3: no effect (R151). -/
def execPopNop (s : State) : Host.Outcome State Fault Refusal := .next s

/-- MOV rd, rs (R152). -/
def execMov (rd rs : Reg) (s : State) : Host.Outcome State Fault Refusal :=
  .next (s.setReg rd (s.reg rs))

/-- MVS with selector 0: no effect (R153). -/
def execMvsNop (s : State) : Host.Outcome State Fault Refusal := .next s

/-- MVS rd, SR (R154). -/
def execMvsSR (rd : Reg) (s : State) : Host.Outcome State Fault Refusal :=
  .next (s.setReg rd s.sr)

/-- MVS rd, PCL (R155). -/
def execMvsPCL (rd : Reg) (s : State) : Host.Outcome State Fault Refusal :=
  .next (s.setReg rd (s.pc.extractLsb' 0 8))

/-- MVS rd, PCH (R156). -/
def execMvsPCH (rd : Reg) (s : State) : Host.Outcome State Fault Refusal :=
  .next (s.setReg rd (s.pc.extractLsb' 8 8))

/-- NOP, memory slot 6 (R157). -/
def execNopMem6 (s : State) : Host.Outcome State Fault Refusal := .next s

/-- NOP, memory slot 7 (R158). -/
def execNopMem7 (s : State) : Host.Outcome State Fault Refusal := .next s

end Sys2Proof.Machine
end

