-- ==== Sys2Proof/Machine/Dispatch.lean ====
section
/-! DEFINITION. The handler of each instruction: one arm per constructor (spec 30_encoding.md R66-R70).
`exec` is the handler alone; the prefetch and the advance of pc follow it in `step` (R80). -/

namespace Sys2Proof.Machine

def exec (i : Instr) (s : State) : Host.Outcome State Fault Refusal :=
  match i with
  -- class 0 (41_arith_rr.md)
  | .addRR rd rs => Sys2Proof.Machine.execAddRR rd rs s
  | .subRR rd rs => Sys2Proof.Machine.execSubRR rd rs s
  | .xorRR rd rs => Sys2Proof.Machine.execXorRR rd rs s
  | .andRR rd rs => Sys2Proof.Machine.execAndRR rd rs s
  | .orRR rd rs => Sys2Proof.Machine.execOrRR rd rs s
  | .mul => Sys2Proof.Machine.execMul s
  | .div => Sys2Proof.Machine.execDiv s
  | .nopRR => Sys2Proof.Machine.execNopRR s
  -- class 1 (42_arith_ri.md)
  | .addRI rd imm => Sys2Proof.Machine.execAddRI rd imm s
  | .subRI rd imm => Sys2Proof.Machine.execSubRI rd imm s
  | .xorRI rd imm => Sys2Proof.Machine.execXorRI rd imm s
  | .andRI rd imm => Sys2Proof.Machine.execAndRI rd imm s
  | .orRI rd imm => Sys2Proof.Machine.execOrRI rd imm s
  | .lsl rd n => Sys2Proof.Machine.execLsl rd n s
  | .lsr rd n => Sys2Proof.Machine.execLsr rd n s
  | .nopRI => Sys2Proof.Machine.execNopRI s
  -- class 2 (43_memory_stack.md)
  | .ldr rd disp => Sys2Proof.Machine.execLdr rd disp s
  | .str rd disp => Sys2Proof.Machine.execStr rd disp s
  | .pushReg rd => Sys2Proof.Machine.execPushReg rd s
  | .pushSR => Sys2Proof.Machine.execPushSR s
  | .pushPC => Sys2Proof.Machine.execPushPC s
  | .pushNop => Sys2Proof.Machine.execPushNop s
  | .popReg rd => Sys2Proof.Machine.execPopReg rd s
  | .popSR => Sys2Proof.Machine.execPopSR s
  | .popPC => Sys2Proof.Machine.execPopPC s
  | .popNop => Sys2Proof.Machine.execPopNop s
  | .mov rd rs => Sys2Proof.Machine.execMov rd rs s
  | .mvsNop => Sys2Proof.Machine.execMvsNop s
  | .mvsSR rd => Sys2Proof.Machine.execMvsSR rd s
  | .mvsPCL rd => Sys2Proof.Machine.execMvsPCL rd s
  | .mvsPCH rd => Sys2Proof.Machine.execMvsPCH rd s
  | .nopMem6 => Sys2Proof.Machine.execNopMem6 s
  | .nopMem7 => Sys2Proof.Machine.execNopMem7 s
  -- class 3 (44_branch.md)
  | .jmp t => Sys2Proof.Machine.execJmp t s
  | .jle rd rs d => Sys2Proof.Machine.execJle rd rs d s
  | .jge rd rs d => Sys2Proof.Machine.execJge rd rs d s
  | .jeq rd rs d => Sys2Proof.Machine.execJeq rd rs d s
  | .jlz d => Sys2Proof.Machine.execJlz d s
  | .jgz d => Sys2Proof.Machine.execJgz d s
  | .jrl d => Sys2Proof.Machine.execJrl d s
  | .nopBranch => Sys2Proof.Machine.execNopBranch s

end Sys2Proof.Machine
end

