-- ==== Sys2Proof/Machine/Step.lean ====
section
/-! DEFINITION. One step: execute the latched word, then prefetch the next one at pc and add 2 to pc
(spec 30_encoding.md R80). -/

namespace Sys2Proof.Machine

/-- Step() (R80). Fetching an instruction's word is `State.prefetch`, in Machine/Ops.lean. -/
def step (s : State) : Host.Outcome State Fault Refusal :=
  match exec (decodeWord s.ir) s with
  | .next t => .next t.prefetch
  | .fault r => .fault r
  | .refused r => .refused r

/-- The state whose next step runs the word w (its bits from nbits up are zero): the word is put
into ir, the latch that the step executes (R32, R80). -/
def State.withFetchWord (s : State) (nbits w : Nat) : State :=
  s.setIr (BitVec.ofNat 16 (w % 2 ^ nbits))

end Sys2Proof.Machine
end

