-- ==== Sys2Proof/Machine/Assembler.lean ====
section
/-! DEFINITION. The spec's own assembler: syntax, pseudo-instructions and label arithmetic (spec
30_encoding.md R72, R73; 44_branch.md R179). Nothing here is hardware; `step` does not use it. A line
is a list of characters; assembling it gives an instruction, whose word is `encode`, or none where
the syntax or a range is not met. -/

namespace Sys2Proof.Machine

/-- The mnemonics of R72 and the pseudo-instructions of R73. -/
inductive Mnemonic where
  | add | sub | xor | and | or | lsl | lsr | mul | div | nop
  | ldr | str | push | pop | mov | mvs
  | jmp | jrl | jlz | jgz | jle | jge | jeq
  | clr | inc | dec | b | ja | halt
  deriving DecidableEq, Repr

/-- An operand of a line (R72). -/
inductive AsmOperand where
  /-- r0-r7, SAL, SAH, DAL or DAH. -/
  | reg (r : Reg)
  /-- #n. -/
  | imm (n : Int)
  /-- [#n]. -/
  | memory (n : Int)
  | sr
  | pc
  | pcl
  | pch
  /-- A label, given by its address. -/
  | label (addr : Nat)
  deriving DecidableEq, Repr

/-! ### Ranges and label arithmetic (R72, R179) -/

/-- An unsigned 8-bit field; a value outside 0..255 is rejected. -/
def asmU8 (n : Int) : Option Byte :=
  if 0 ≤ n ∧ n ≤ 255 then some (BitVec.ofInt 8 n) else none

/-- A displacement of JRL, JLZ, JGZ; one outside -128..127 is rejected. -/
def asmD8 (d : Int) : Option Int := if fitsD8 d then some d else none

/-- A displacement of JLE, JGE, JEQ; one outside -16..15 is rejected. -/
def asmD5 (d : Int) : Option Int := if fitsD5 d then some d else none

/-- d = L - A, for a relative branch at address A whose next instruction is at label L (R179). -/
def labelDisp (here label : Nat) : Int := (label : Int) - (here : Int)

/-- t = L + 2, the field of a JMP whose next instruction is at label L (R179). -/
def labelTarget (label : Nat) : Option Byte := asmU8 ((label : Int) + 2)

/-- The displacement of a relative branch at address `here`: a number, or a label. -/
def asmDisp (here : Nat) (o : AsmOperand) : Option Int :=
  match o with
  | .imm d => some d
  | .label l => some (labelDisp here l)
  | _ => none

/-! ### One form per mnemonic (R72, R73) -/

/-- Two-operand arithmetic: # on the second operand selects the register/immediate class. -/
def asmBinary (rr : Reg → Reg → Instr) (ri : Reg → Byte → Instr) (ops : List AsmOperand) :
    Option Instr :=
  match ops with
  | [.reg rd, .reg rs] => some (rr rd rs)
  | [.reg rd, .imm n] => (asmU8 n).map (ri rd)
  | _ => none

/-- LSL rd, #n and LSR rd, #n. -/
def asmShift (f : Reg → Byte → Instr) (ops : List AsmOperand) : Option Instr :=
  match ops with
  | [.reg rd, .imm n] => (asmU8 n).map (f rd)
  | _ => none

/-- LDR rd, [#imm8] and STR rd, [#imm8]. -/
def asmMemory (f : Reg → Byte → Instr) (ops : List AsmOperand) : Option Instr :=
  match ops with
  | [.reg rd, .memory n] => (asmU8 n).map (f rd)
  | _ => none

/-- JRL, JLZ, JGZ. -/
def asmBranch8 (f : Int → Instr) (here : Nat) (ops : List AsmOperand) : Option Instr :=
  match ops with
  | [o] => ((asmDisp here o).bind asmD8).map f
  | _ => none

/-- JLE, JGE, JEQ. -/
def asmBranch5 (f : Reg → Reg → Int → Instr) (here : Nat) (ops : List AsmOperand) : Option Instr :=
  match ops with
  | [.reg rd, .reg rs, o] => ((asmDisp here o).bind asmD5).map (f rd rs)
  | _ => none

/-- A mnemonic with no operand. -/
def asmNone (i : Instr) (ops : List AsmOperand) : Option Instr :=
  match ops with
  | [] => some i
  | _ => none

/-- A pseudo-instruction on one register. -/
def asmReg (f : Reg → Instr) (ops : List AsmOperand) : Option Instr :=
  match ops with
  | [.reg rd] => some (f rd)
  | _ => none

/-- PUSH rd, PUSH SR, PUSH PC. -/
def asmPush (ops : List AsmOperand) : Option Instr :=
  match ops with
  | [.reg rd] => some (.pushReg rd)
  | [.sr] => some .pushSR
  | [.pc] => some .pushPC
  | _ => none

/-- POP rd, POP SR, POP PC. -/
def asmPop (ops : List AsmOperand) : Option Instr :=
  match ops with
  | [.reg rd] => some (.popReg rd)
  | [.sr] => some .popSR
  | [.pc] => some .popPC
  | _ => none

/-- MOV rd, rs. -/
def asmMov (ops : List AsmOperand) : Option Instr :=
  match ops with
  | [.reg rd, .reg rs] => some (.mov rd rs)
  | _ => none

/-- MVS rd, SR; MVS rd, PCL; MVS rd, PCH. -/
def asmMvs (ops : List AsmOperand) : Option Instr :=
  match ops with
  | [.reg rd, .sr] => some (.mvsSR rd)
  | [.reg rd, .pcl] => some (.mvsPCL rd)
  | [.reg rd, .pch] => some (.mvsPCH rd)
  | _ => none

/-- JMP #t. -/
def asmJmp (ops : List AsmOperand) : Option Instr :=
  match ops with
  | [.imm t] => (asmU8 t).map .jmp
  | _ => none

/-- B L = JRL #(L - .) (R73). -/
def asmB (here : Nat) (ops : List AsmOperand) : Option Instr :=
  match ops with
  | [.label l] => (asmD8 (labelDisp here l)).map .jrl
  | _ => none

/-- JA L = JMP #(L + 2) (R73). -/
def asmJA (ops : List AsmOperand) : Option Instr :=
  match ops with
  | [.label l] => (labelTarget l).map .jmp
  | _ => none

/-- The instruction of one statement at address `here` (R72, R73, R179). -/
def assemble (here : Nat) (m : Mnemonic) (ops : List AsmOperand) : Option Instr :=
  match m with
  | .add => asmBinary .addRR .addRI ops
  | .sub => asmBinary .subRR .subRI ops
  | .xor => asmBinary .xorRR .xorRI ops
  | .and => asmBinary .andRR .andRI ops
  | .or => asmBinary .orRR .orRI ops
  | .lsl => asmShift .lsl ops
  | .lsr => asmShift .lsr ops
  | .mul => asmNone .mul ops
  | .div => asmNone .div ops
  | .nop => asmNone .nopRR ops
  | .ldr => asmMemory .ldr ops
  | .str => asmMemory .str ops
  | .push => asmPush ops
  | .pop => asmPop ops
  | .mov => asmMov ops
  | .mvs => asmMvs ops
  | .jmp => asmJmp ops
  | .jrl => asmBranch8 .jrl here ops
  | .jlz => asmBranch8 .jlz here ops
  | .jgz => asmBranch8 .jgz here ops
  | .jle => asmBranch5 .jle here ops
  | .jge => asmBranch5 .jge here ops
  | .jeq => asmBranch5 .jeq here ops
  | .clr => asmReg (fun rd => .xorRR rd rd) ops
  | .inc => asmReg (fun rd => .addRI rd 1) ops
  | .dec => asmReg (fun rd => .subRI rd 1) ops
  | .b => asmB here ops
  | .ja => asmJA ops
  | .halt => asmNone (.jrl 0) ops

/-! ### Text (R72) -/

/-- A token: a word of letters, digits and signs, or one of the marks , # [ ]. -/
inductive AsmToken where
  | word (w : List Char)
  | comma
  | hash
  | lbrack
  | rbrack
  deriving DecidableEq, Repr

/-- The word read so far, as a token, in front of the tokens after it. -/
def flushWord (acc : List Char) (rest : List AsmToken) : List AsmToken :=
  match acc with
  | [] => rest
  | _ :: _ => .word acc :: rest

/-- Tokens of a line; `acc` is the word read so far. -/
def lexAsm (acc : List Char) (line : List Char) : List AsmToken :=
  match line with
  | [] => flushWord acc []
  | c :: cs =>
    if c = ' ' then flushWord acc (lexAsm [] cs)
    else if c = ',' then flushWord acc (.comma :: lexAsm [] cs)
    else if c = '#' then flushWord acc (.hash :: lexAsm [] cs)
    else if c = '[' then flushWord acc (.lbrack :: lexAsm [] cs)
    else if c = ']' then flushWord acc (.rbrack :: lexAsm [] cs)
    else lexAsm (acc ++ [c]) cs

/-- The value of a digit in a base of at most 16. -/
def asmDigit (base : Nat) (c : Char) : Option Nat :=
  let n := c.toNat
  let v := if 48 ≤ n ∧ n ≤ 57 then some (n - 48)
    else if 65 ≤ n ∧ n ≤ 70 then some (n - 55)
    else if 97 ≤ n ∧ n ≤ 102 then some (n - 87)
    else none
  v.filter (fun d => d < base)

/-- The value of a list of digits, after `acc`. -/
def asmDigits (base acc : Nat) (cs : List Char) : Option Nat :=
  match cs with
  | [] => some acc
  | c :: cs => (asmDigit base c).bind fun d => asmDigits base (acc * base + d) cs

/-- n, decimal or 0x hexadecimal. -/
def asmNat (cs : List Char) : Option Nat :=
  match cs with
  | [] => none
  | '0' :: 'x' :: c :: rest => asmDigits 16 0 (c :: rest)
  | c :: rest => asmDigits 10 0 (c :: rest)

/-- A number that may be negative; whether a field takes a negative one is its range check's. -/
def asmInt (cs : List Char) : Option Int :=
  match cs with
  | '-' :: rest => (asmNat rest).map fun n => -(n : Int)
  | _ => (asmNat cs).map fun n => (n : Int)

/-- The value a word names in a table. -/
def asmLookup {α : Type} (w : List Char) (table : List (List Char × α)) : Option α :=
  match table with
  | [] => none
  | c :: rest => if c.1 = w then some c.2 else asmLookup w rest

/-- The words of R72 that are operands. -/
def asmNames : List (List Char × AsmOperand) :=
  [(['r', '0'], .reg .r0), (['r', '1'], .reg .r1), (['r', '2'], .reg .r2), (['r', '3'], .reg .r3),
   (['r', '4'], .reg .r4), (['r', '5'], .reg .r5), (['r', '6'], .reg .r6), (['r', '7'], .reg .r7),
   (['S', 'A', 'L'], .reg .sal), (['S', 'A', 'H'], .reg .sah),
   (['D', 'A', 'L'], .reg .dal), (['D', 'A', 'H'], .reg .dah),
   (['S', 'R'], .sr), (['P', 'C'], .pc), (['P', 'C', 'L'], .pcl), (['P', 'C', 'H'], .pch)]

/-- The words of R72 and R73 that are mnemonics. -/
def asmMnemonics : List (List Char × Mnemonic) :=
  [(['A', 'D', 'D'], .add), (['S', 'U', 'B'], .sub), (['X', 'O', 'R'], .xor),
   (['A', 'N', 'D'], .and), (['O', 'R'], .or), (['L', 'S', 'L'], .lsl), (['L', 'S', 'R'], .lsr),
   (['M', 'U', 'L'], .mul), (['D', 'I', 'V'], .div), (['N', 'O', 'P'], .nop),
   (['L', 'D', 'R'], .ldr), (['S', 'T', 'R'], .str), (['P', 'U', 'S', 'H'], .push),
   (['P', 'O', 'P'], .pop), (['M', 'O', 'V'], .mov), (['M', 'V', 'S'], .mvs)] ++
  [(['J', 'M', 'P'], .jmp), (['J', 'R', 'L'], .jrl), (['J', 'L', 'Z'], .jlz),
   (['J', 'G', 'Z'], .jgz), (['J', 'L', 'E'], .jle), (['J', 'G', 'E'], .jge),
   (['J', 'E', 'Q'], .jeq), (['C', 'L', 'R'], .clr), (['I', 'N', 'C'], .inc),
   (['D', 'E', 'C'], .dec), (['B'], .b), (['J', 'A'], .ja), (['H', 'A', 'L', 'T'], .halt)]

/-- A word as an operand: a name of R72, or else a label of the symbol table. -/
def asmWord (symbols : List (List Char × Nat)) (w : List Char) : Option AsmOperand :=
  match asmLookup w asmNames with
  | some o => some o
  | none => (asmLookup w symbols).map .label

/-- One or more operands separated by commas. -/
def asmOperands (symbols : List (List Char × Nat)) (ts : List AsmToken) :
    Option (List AsmOperand) :=
  match ts with
  | [] => none
  | [.hash, .word w] => (asmInt w).map fun n => [.imm n]
  | [.lbrack, .hash, .word w, .rbrack] => (asmInt w).map fun n => [.memory n]
  | [.word w] => (asmWord symbols w).map fun o => [o]
  | .hash :: .word w :: .comma :: rest =>
    (asmInt w).bind fun n => (asmOperands symbols rest).map fun os => .imm n :: os
  | .lbrack :: .hash :: .word w :: .rbrack :: .comma :: rest =>
    (asmInt w).bind fun n => (asmOperands symbols rest).map fun os => .memory n :: os
  | .word w :: .comma :: rest =>
    (asmWord symbols w).bind fun o => (asmOperands symbols rest).map fun os => o :: os
  | _ => none

/-- The instruction of a line of text at address `here` (R72). -/
def assembleLine (symbols : List (List Char × Nat)) (here : Nat) (line : List Char) :
    Option Instr :=
  match lexAsm [] line with
  | [.word w] => (asmLookup w asmMnemonics).bind fun m => assemble here m []
  | .word w :: t :: ts =>
    (asmLookup w asmMnemonics).bind fun m =>
      (asmOperands symbols (t :: ts)).bind fun ops => assemble here m ops
  | _ => none

end Sys2Proof.Machine
end

