-- ==== Sys2Proof/Safety.lean ====
section
/-! DEFINITION. The terms that statements about the machine use: completing runs, the end of a run,
the canonical memory, what an instruction may write, and frames. -/

namespace Sys2Proof.Machine

/-! ### Runs -/

/-- k steps from s all complete, with no fault and no refusal (30_encoding.md R82). -/
def RunCompletes (k : Nat) (s : State) : Prop :=
  ∃ t, Host.Core.run Sys2Proof.core k s = .next t

/-- The invariant of the model: memory is in its one canonical form (10_state.md R33). -/
def State.canonical (s : State) : Prop := Memory.wf s.mem = true

/-- The latched word is JRL #0, fetched from A = pc - 2, and memory at A and A + 1 still holds it:
the end of a run, for claims only (70_reset_and_hazards.md R229). The core itself goes on. -/
def State.atEnd (s : State) : Prop :=
  s.ir = 0xF000 ∧ s.fetchWord (s.pc - 2).toNat = 0xF000

end Sys2Proof.Machine

namespace Sys2Proof

/-! ### Groups of instructions -/

/-- The instructions that may write pc: the branches and POP PC (60_exceptions.md R204). -/
def Instr.transfersControl (i : Instr) : Bool :=
  match i with
  | .jmp _ | .jle _ _ _ | .jge _ _ _ | .jeq _ _ _ | .jlz _ | .jgz _ | .jrl _ | .popPC => true
  | .addRR _ _ | .subRR _ _ | .xorRR _ _ | .andRR _ _ | .orRR _ _ | .mul | .div | .nopRR => false
  | .addRI _ _ | .subRI _ _ | .xorRI _ _ | .andRI _ _ | .orRI _ _ => false
  | .lsl _ _ | .lsr _ _ | .nopRI | .ldr _ _ | .str _ _ => false
  | .pushReg _ | .pushSR | .pushPC | .pushNop | .popReg _ | .popSR | .popNop => false
  | .mov _ _ | .mvsNop | .mvsSR _ | .mvsPCL _ | .mvsPCH _ => false
  | .nopMem6 | .nopMem7 | .nopBranch => false

/-- The instructions that read and write sp: PUSH and POP (10_state.md R31). -/
def Instr.usesStack (i : Instr) : Bool :=
  match i with
  | .pushReg _ | .pushSR | .pushPC | .popReg _ | .popSR | .popPC => true
  | .addRR _ _ | .subRR _ _ | .xorRR _ _ | .andRR _ _ | .orRR _ _ | .mul | .div | .nopRR => false
  | .addRI _ _ | .subRI _ _ | .xorRI _ _ | .andRI _ _ | .orRI _ _ => false
  | .lsl _ _ | .lsr _ _ | .nopRI | .ldr _ _ | .str _ _ | .pushNop | .popNop => false
  | .mov _ _ | .mvsNop | .mvsSR _ | .mvsPCL _ | .mvsPCH _ => false
  | .nopMem6 | .nopMem7 | .nopBranch => false
  | .jmp _ | .jle _ _ _ | .jge _ _ _ | .jeq _ _ _ | .jlz _ | .jgz _ | .jrl _ => false

/-- The handlers that touch memory: LDR, STR, PUSH and POP (20_memory.md R41). -/
def Instr.touchesMemory (i : Instr) : Bool :=
  match i with
  | .ldr _ _ | .str _ _ => true
  | .pushReg _ | .pushSR | .pushPC | .popReg _ | .popSR | .popPC => true
  | .addRR _ _ | .subRR _ _ | .xorRR _ _ | .andRR _ _ | .orRR _ _ | .mul | .div | .nopRR => false
  | .addRI _ _ | .subRI _ _ | .xorRI _ _ | .andRI _ _ | .orRI _ _ => false
  | .lsl _ _ | .lsr _ _ | .nopRI | .pushNop | .popNop => false
  | .mov _ _ | .mvsNop | .mvsSR _ | .mvsPCL _ | .mvsPCH _ => false
  | .nopMem6 | .nopMem7 | .nopBranch => false
  | .jmp _ | .jle _ _ _ | .jge _ _ _ | .jeq _ _ _ | .jlz _ | .jgz _ | .jrl _ => false

/-- The handlers that write memory: STR and PUSH (20_memory.md R45). -/
def Instr.storesMemory (i : Instr) : Bool :=
  match i with
  | .str _ _ | .pushReg _ | .pushSR | .pushPC => true
  | .addRR _ _ | .subRR _ _ | .xorRR _ _ | .andRR _ _ | .orRR _ _ | .mul | .div | .nopRR => false
  | .addRI _ _ | .subRI _ _ | .xorRI _ _ | .andRI _ _ | .orRI _ _ => false
  | .lsl _ _ | .lsr _ _ | .nopRI | .ldr _ _ => false
  | .pushNop | .popReg _ | .popSR | .popPC | .popNop => false
  | .mov _ _ | .mvsNop | .mvsSR _ | .mvsPCL _ | .mvsPCH _ => false
  | .nopMem6 | .nopMem7 | .nopBranch => false
  | .jmp _ | .jle _ _ _ | .jge _ _ _ | .jeq _ _ _ | .jlz _ | .jgz _ | .jrl _ => false

/-- The handlers that read sr: JLZ and JGZ, STR, PUSH SR and MVS SR (10_state.md R25). -/
def Instr.readsStatus (i : Instr) : Bool :=
  match i with
  | .jlz _ | .jgz _ | .str _ _ | .pushSR | .mvsSR _ => true
  | .addRR _ _ | .subRR _ _ | .xorRR _ _ | .andRR _ _ | .orRR _ _ | .mul | .div | .nopRR => false
  | .addRI _ _ | .subRI _ _ | .xorRI _ _ | .andRI _ _ | .orRI _ _ => false
  | .lsl _ _ | .lsr _ _ | .nopRI | .ldr _ _ => false
  | .pushReg _ | .pushPC | .pushNop | .popReg _ | .popSR | .popPC | .popNop => false
  | .mov _ _ | .mvsNop | .mvsPCL _ | .mvsPCH _ => false
  | .nopMem6 | .nopMem7 | .nopBranch => false
  | .jmp _ | .jle _ _ _ | .jge _ _ _ | .jeq _ _ _ | .jrl _ => false

/-- The bits of sr that an instruction may write (R25): Z 0x01, N 0x02, V 0x04, C 0x08. -/
def Instr.srWrites (i : Instr) : Byte :=
  match i with
  | .addRR _ _ | .subRR _ _ | .addRI _ _ | .subRI _ _ => 0x0F
  | .xorRR _ _ | .andRR _ _ | .orRR _ _ | .xorRI _ _ | .andRI _ _ | .orRI _ _ => 0x03
  | .mul => 0x0B
  | .div => 0x03
  | .lsl _ n | .lsr _ n => if n = 0 then 0x03 else 0x0B
  | .popSR => 0xFF
  | .nopRR | .nopRI | .ldr _ _ | .str _ _ => 0x00
  | .pushReg _ | .pushSR | .pushPC | .pushNop | .popReg _ | .popPC | .popNop => 0x00
  | .mov _ _ | .mvsNop | .mvsSR _ | .mvsPCL _ | .mvsPCH _ => 0x00
  | .nopMem6 | .nopMem7 | .nopBranch => 0x00
  | .jmp _ | .jle _ _ _ | .jge _ _ _ | .jeq _ _ _ | .jlz _ | .jgz _ | .jrl _ => 0x00

/-- The registers an instruction may write (10_state.md R23). -/
def Instr.regWrites (i : Instr) : List Reg :=
  match i with
  | .addRR rd _ | .subRR rd _ | .xorRR rd _ | .andRR rd _ | .orRR rd _ => [rd]
  | .mul | .div => [.r2, .r3]
  | .addRI rd _ | .subRI rd _ | .xorRI rd _ | .andRI rd _ | .orRI rd _ => [rd]
  | .lsl rd _ | .lsr rd _ => [rd]
  | .ldr rd _ | .popReg rd | .mov rd _ | .mvsSR rd | .mvsPCL rd | .mvsPCH rd => [rd]
  | .nopRR | .nopRI | .str _ _ => []
  | .pushReg _ | .pushSR | .pushPC | .pushNop | .popSR | .popPC | .popNop | .mvsNop => []
  | .nopMem6 | .nopMem7 | .nopBranch => []
  | .jmp _ | .jle _ _ _ | .jge _ _ _ | .jeq _ _ _ | .jlz _ | .jgz _ | .jrl _ => []

end Sys2Proof

namespace Sys2Proof.Machine

/-! ### Cells a handler touches (20_memory.md R45) -/

/-- The cells that the handler of an instruction reads in a state: LDR's, and those of the pops. -/
def State.cellsRead (s : State) (i : Instr) : List Nat :=
  match i with
  | .ldr _ d => [phys (s.eaLoad d)]
  | .popReg _ | .popSR => [phys (s.sp + 1).toNat]
  | .popPC => [phys (s.sp + 1).toNat, phys (s.sp + 2).toNat]
  | .addRR _ _ | .subRR _ _ | .xorRR _ _ | .andRR _ _ | .orRR _ _ | .mul | .div | .nopRR => []
  | .addRI _ _ | .subRI _ _ | .xorRI _ _ | .andRI _ _ | .orRI _ _ => []
  | .lsl _ _ | .lsr _ _ | .nopRI | .str _ _ => []
  | .pushReg _ | .pushSR | .pushPC | .pushNop | .popNop => []
  | .mov _ _ | .mvsNop | .mvsSR _ | .mvsPCL _ | .mvsPCH _ => []
  | .nopMem6 | .nopMem7 | .nopBranch => []
  | .jmp _ | .jle _ _ _ | .jge _ _ _ | .jeq _ _ _ | .jlz _ | .jgz _ | .jrl _ => []

/-- The cells that the handler of an instruction stores to in a state: STR's, and those of the
pushes. -/
def State.cellsStored (s : State) (i : Instr) : List Nat :=
  match i with
  | .str _ d => [phys (s.eaStore d)]
  | .pushReg _ | .pushSR => [phys s.sp.toNat]
  | .pushPC => [phys s.sp.toNat, phys (s.sp - 1).toNat]
  | .addRR _ _ | .subRR _ _ | .xorRR _ _ | .andRR _ _ | .orRR _ _ | .mul | .div | .nopRR => []
  | .addRI _ _ | .subRI _ _ | .xorRI _ _ | .andRI _ _ | .orRI _ _ => []
  | .lsl _ _ | .lsr _ _ | .nopRI | .ldr _ _ => []
  | .pushNop | .popReg _ | .popSR | .popPC | .popNop => []
  | .mov _ _ | .mvsNop | .mvsSR _ | .mvsPCL _ | .mvsPCH _ => []
  | .nopMem6 | .nopMem7 | .nopBranch => []
  | .jmp _ | .jle _ _ _ | .jge _ _ _ | .jeq _ _ _ | .jlz _ | .jgz _ | .jrl _ => []

/-! ### Frames -/

/-- Every register but those written is as before. -/
def RegsKept (s t : State) (written : List Reg) : Prop :=
  ∀ r, r ∉ written → t.reg r = s.reg r

/-- Every bit of sr outside a mask is as before. -/
def SrKept (s t : State) (mask : Byte) : Prop := t.sr &&& ~~~mask = s.sr &&& ~~~mask

/-- Every address reads as before. -/
def MemKept (s t : State) : Prop := ∀ b, t.memRead b = s.memRead b

/-- Every address reads as before but those of one cell, the one address a names. -/
def MemKeptBut (s t : State) (a : Nat) : Prop :=
  ∀ b, phys b ≠ phys a → t.memRead b = s.memRead b

/-- The frame of a handler that writes only registers and flags: sp, pc, ir and memory as before. -/
def RegisterFrame (s t : State) (written : List Reg) (mask : Byte) : Prop :=
  RegsKept s t written ∧ SrKept s t mask ∧ t.sp = s.sp ∧ t.pc = s.pc ∧ t.ir = s.ir ∧ MemKept s t

/-- The frame of a handler that writes only pc. -/
def BranchFrame (s t : State) : Prop :=
  RegsKept s t [] ∧ t.sr = s.sr ∧ t.sp = s.sp ∧ t.ir = s.ir ∧ MemKept s t

/-- pc moved by a displacement with the 2 that the advance will add taken off (44_branch.md R170). -/
def MovedBy (s t : State) (d : Int) : Prop :=
  (t.pc.toNat : Int) = ((s.pc.toNat : Int) + d - 2) % 65536

/-! ### Flags as the spec's formulas state them (41_arith_rr.md R90-R92) -/

/-- Z, N, V, C of a + b with result res (R90). -/
def SumFlags (a b res : Byte) (t : State) : Prop :=
  (t.flagZ = true ↔ res = 0) ∧
  (t.flagN = true ↔ res.getLsbD 7 = true) ∧
  (t.flagC = true ↔ 256 ≤ a.toNat + b.toNat) ∧
  (t.flagV = true ↔ a.getLsbD 7 = b.getLsbD 7 ∧ res.getLsbD 7 ≠ a.getLsbD 7)

/-- Z, N, V, C of a - b with result res; C is the borrow (R91). -/
def DiffFlags (a b res : Byte) (t : State) : Prop :=
  (t.flagZ = true ↔ res = 0) ∧
  (t.flagN = true ↔ res.getLsbD 7 = true) ∧
  (t.flagC = true ↔ a.toNat < b.toNat) ∧
  (t.flagV = true ↔ a.getLsbD 7 ≠ b.getLsbD 7 ∧ res.getLsbD 7 ≠ a.getLsbD 7)

/-- Z and N of a result (R92). -/
def ResultFlags (res : Byte) (t : State) : Prop :=
  (t.flagZ = true ↔ res = 0) ∧ (t.flagN = true ↔ res.getLsbD 7 = true)

/-! ### Rows of the opcode map (30_encoding.md R71): every word of a row decodes to its instruction,
with the operands of the fields of R62 -/

/-- A row of format RR or MR. -/
def RowRR (pattern : Word) (f : Reg → Reg → Instr) : Prop :=
  ∀ w : Word, w &&& 0xF800 = pattern →
    decodeWord w = f (Reg.ofBits (w.extractLsb' 8 3)) (Reg.ofBits (w.extractLsb' 5 3))

/-- A row of format RI or MD. -/
def RowRI (pattern : Word) (f : Reg → Byte → Instr) : Prop :=
  ∀ w : Word, w &&& 0xF800 = pattern →
    decodeWord w = f (Reg.ofBits (w.extractLsb' 8 3)) (w.extractLsb' 0 8)

/-- A row of format MS or MX with a register. -/
def RowSel (pattern : Word) (f : Reg → Instr) : Prop :=
  ∀ w : Word, w &&& 0xF803 = pattern → decodeWord w = f (Reg.ofBits (w.extractLsb' 8 3))

/-- A row with no operand. -/
def RowPlain (pattern mask : Word) (i : Instr) : Prop :=
  ∀ w : Word, w &&& mask = pattern → decodeWord w = i

/-- A row of format BA with a signed displacement. -/
def RowBA (pattern : Word) (f : Int → Instr) : Prop :=
  ∀ w : Word, w &&& 0xF800 = pattern → decodeWord w = f (w.extractLsb' 0 8).toInt

/-- A row of format BC. -/
def RowBC (pattern : Word) (f : Reg → Reg → Int → Instr) : Prop :=
  ∀ w : Word, w &&& 0xF800 = pattern →
    decodeWord w =
      f (Reg.ofBits (w.extractLsb' 8 3)) (Reg.ofBits (w.extractLsb' 5 3)) (w.extractLsb' 0 5).toInt

end Sys2Proof.Machine
end

