-- ==== Sys2Proof/Certificates/Slice0/Obligations.lean ====
section
/-! DEFINITION. The statements about binary-boi. OBLIGATIONS.json names the rules of spec/ each one
formalises. Every hypothesis has its witness in Sys2Proof/Tests/Slice0.lean. Rule numbers here are
those of spec/; where a rule records a decision of the spec, the docstring names it (D<n>,
92_eei_decisions.md). No statement rests on a value that the model chose; three statements speak of
the canonical form of memory, which is the model's choice (log entry 1). -/

open Sys2Proof Sys2Proof.Machine

/-! ### Encoding and decoding -/

/-- Decoding the bytes of a well-formed instruction, whatever follows them, gives it back and leaves
what follows (R60, R71). -/
def Obligations.DecodeOfEncodeGivesInstruction : Prop :=
  ∀ (i : Instr) (rest : List Byte), WellFormed i → decode (encodeBytes i ++ rest) = .ok (i, rest)

/-- Every word decodes to a well-formed instruction, and encoding that instruction gives the word with
the bits its format ignores cleared (R63, R69, R72). -/
def Obligations.EncodeOfDecodeKeepsUsedBits : Prop :=
  ∀ w : Word, WellFormed (decodeWord w) ∧
    encode (decodeWord w) = w &&& (decodeWord w).usedBits

/-- Every word matches exactly one row of the 41, the row of the instruction it decodes to
(R69, R71). -/
def Obligations.EveryWordMatchesOneRow : Prop :=
  opcodeMap.length = 41 ∧
  ∀ w : Word, opcodeMap.filter (fun p => w &&& p.mask = p.pattern) = [(decodeWord w).row]

/-- Two words that agree on the bits the format reads decode alike (R63, R69; D3). -/
def Obligations.IgnoredBitsChangeNothing : Prop :=
  ∀ w w' : Word, w &&& (decodeWord w).usedBits = w' &&& (decodeWord w).usedBits →
    decodeWord w' = decodeWord w

/-- The words of one example of each family decode to the instruction their rule names (R100, R120,
R141, R150, R172, R173). -/
def Obligations.ExampleWordsDecode : Prop :=
  decodeWord 0x0140 = .addRR .r1 .r2 ∧
  decodeWord 0x400A = .addRI .r0 10 ∧
  decodeWord 0x8010 = .ldr .r0 0x10 ∧
  decodeWord 0x9802 = .popPC ∧
  decodeWord 0xF004 = .jrl 4 ∧
  decodeWord 0xC83C = .jle .r0 .r1 (-4)

/-- Whatever the spec's assembler accepts is well-formed. A relative branch takes its displacement as a
number d or as a label L = A + d, and is rejected outside -128..127 (JRL, JLZ, JGZ, B, which takes a
label only) or -16..15 (JLE, JGE, JEQ). JA takes a label L with L + 2 in 0..255. An 8-bit immediate,
count, displacement or JMP target outside 0..255 is rejected (R72, R73, R179). -/
def Obligations.AssemblerRejectsOutOfRange : Prop :=
  (∀ (here : Nat) (m : Mnemonic) (ops : List AsmOperand) (i : Instr),
    assemble here m ops = some i → WellFormed i) ∧
  (∀ (here : Nat) (d : Int) (o : AsmOperand),
    (o = .imm d ∨ ∃ l : Nat, o = .label l ∧ (l : Int) - here = d) →
    (∀ p ∈ [(Mnemonic.jrl, Instr.jrl), (.jlz, .jlz), (.jgz, .jgz)],
      assemble here p.1 [o] = if -128 ≤ d ∧ d ≤ 127 then some (p.2 d) else none) ∧
    ∀ p ∈ [(Mnemonic.jle, Instr.jle), (.jge, .jge), (.jeq, .jeq)], ∀ rd rs : Reg,
      assemble here p.1 [.reg rd, .reg rs, o] =
        if -16 ≤ d ∧ d ≤ 15 then some (p.2 rd rs d) else none) ∧
  (∀ here l : Nat, assemble here .b [.label l] =
    if -128 ≤ (l : Int) - here ∧ (l : Int) - here ≤ 127 then some (.jrl ((l : Int) - here))
    else none) ∧
  (∀ here l : Nat, assemble here .ja [.label l] =
    if l + 2 ≤ 255 then some (.jmp (BitVec.ofNat 8 (l + 2))) else none) ∧
  ∀ (here : Nat) (rd : Reg) (n : Int),
    (∀ p ∈ [(Mnemonic.add, Instr.addRI), (.sub, .subRI), (.xor, .xorRI), (.and, .andRI),
        (.or, .orRI), (.lsl, .lsl), (.lsr, .lsr)],
      assemble here p.1 [.reg rd, .imm n] =
        if 0 ≤ n ∧ n ≤ 255 then some (p.2 rd (BitVec.ofNat 8 n.toNat)) else none) ∧
    (∀ p ∈ [(Mnemonic.ldr, Instr.ldr), (.str, .str)],
      assemble here p.1 [.reg rd, .memory n] =
        if 0 ≤ n ∧ n ≤ 255 then some (p.2 rd (BitVec.ofNat 8 n.toNat)) else none) ∧
    assemble here .jmp [.imm n] =
      if 0 ≤ n ∧ n ≤ 255 then some (.jmp (BitVec.ofNat 8 n.toNat)) else none

/-! ### The step -/

/-- A step runs the instruction that the latched word decodes to, which completes; then it latches the
word at pc, as the handler left pc, and adds 2 to pc (R80). -/
def Obligations.StepRunsLatchedInstruction : Prop :=
  ∀ (s : State) (i : Instr), decodeWord s.ir = i →
    ∃ t, exec i s = .next t ∧
      step s = .next { t with ir := t.fetchWord t.pc.toNat, pc := t.pc + 2 }

/-- Every handler completes in every state, and so does every run of any length (R82, R200). -/
def Obligations.EveryRunCompletes : Prop :=
  (∀ (i : Instr) (s : State), ∃ t, exec i s = .next t) ∧
  ∀ (k : Nat) (s : State), RunCompletes k s

/-- After any step ir holds the word at pc - 2, so that the next handler sees pc = the address of
its instruction plus 2, and the next instruction is the one that the two bytes there decode to
(R29, R81). -/
def Obligations.LatchHoldsWordBeforePc : Prop :=
  ∀ s t : State, step s = .next t →
    t.ir = t.fetchWord (t.pc - 2).toNat ∧
    decode [t.memRead (t.pc - 2).toNat, t.memRead ((t.pc - 2).toNat + 1)] =
      .ok (decodeWord t.ir, [])

/-- Only the branches and POP PC write pc in their handlers; a step of any other instruction adds 2 to
pc modulo 65536, so an even pc stays even (R28, R30, R204). -/
def Obligations.OnlyTransfersMovePc : Prop :=
  (∀ (i : Instr) (s t : State), i.transfersControl = false → exec i s = .next t → t.pc = s.pc) ∧
  ∀ s t : State, (decodeWord s.ir).transfersControl = false → step s = .next t →
    t.pc.toNat = (s.pc.toNat + 2) % 65536 ∧ (s.pc.toNat % 2 = 0 → t.pc.toNat % 2 = 0)

/-- The self-loop JRL #0, fetched from memory that still holds it, leaves the whole state unchanged,
step after step (R82, R172, R229). -/
def Obligations.SelfLoopKeepsState : Prop :=
  ∀ s : State, s.atEnd → step s = .next s ∧ ∀ k, Host.Core.run Sys2Proof.core k s = .next s

/-! ### Reset and launch -/

/-- Every piece of state at its reset value; ir is the word prefetched from address 0 (R34; D14). -/
def Obligations.ResetValues : Prop :=
  (∀ r, State.reset.reg r = 0) ∧ State.reset.sr = 0x00 ∧ State.reset.pc = 0x0000 ∧
  State.reset.sp = 0xFFFF ∧ (∀ a, State.reset.memRead a = 0) ∧ State.reset.ir = 0x0000 ∧
  State.reset.ir = State.reset.fetchWord 0

/-- The launch state has every register, sr and pc 0, sp 0xFFFF and 0x0000 latched, which is ADD r0, r0,
whatever the host loads after construction; so the first step executes that: it sets Z, leaves
registers, sp and memory, and fetches the word at address 0 (R224, R225). -/
def Obligations.FillStepFetchesEntryPoint : Prop :=
  ∀ image : List (Fin Config.memSize × Byte),
    ((State.launch image).ir = 0x0000 ∧ decodeWord (State.launch image).ir = .addRR .r0 .r0 ∧
      (∀ r, (State.launch image).reg r = 0) ∧ (State.launch image).sr = 0x00 ∧
      (State.launch image).pc = 0x0000 ∧ (State.launch image).sp = 0xFFFF) ∧
    ∃ t, step (State.launch image) = .next t ∧
      (∀ r, t.reg r = 0) ∧ t.sr = 0x01 ∧ t.pc = 2 ∧ t.sp = 0xFFFF ∧
      t.ir = (State.launch image).fetchWord 0 ∧ t.mem = (State.launch image).mem

/-- In the launch state memory is zero but where the host wrote, and holds the last byte written
there (R225, R228). -/
def Obligations.LaunchMemoryIsTheImage : Prop :=
  (∀ (image : List (Fin Config.memSize × Byte)) (a : Fin Config.memSize),
    a ∉ image.map Prod.fst → (State.launch image).memRead a.val = 0) ∧
  (∀ (image rest : List (Fin Config.memSize × Byte)) (a : Fin Config.memSize) (v : Byte),
    a ∉ rest.map Prod.fst → (State.launch (image ++ (a, v) :: rest)).memRead a.val = v)

/-- A host write between steps changes a byte of memory and nothing else, so the next step executes
the same latched instruction, whatever it is. Unless the handler reads the host's cell, the step gives
the same registers, sr, sp and pc; memory differs in the host's byte only, and not in that one when the
handler stores to its cell; the word it latches is the same unless the host's cell holds a byte of it
(R51, R228, R231). -/
def Obligations.HostWriteKeepsLatchedInstruction : Prop :=
  ∀ (s : State) (k : Fin Config.memSize) (v : Byte),
    ((s.hostWrite k v).ir = s.ir ∧ (s.hostWrite k v).regs = s.regs ∧ (s.hostWrite k v).sr = s.sr ∧
      (s.hostWrite k v).pc = s.pc ∧ (s.hostWrite k v).sp = s.sp ∧
      ∀ b, (s.hostWrite k v).memRead b = if phys b = k.val then v else s.memRead b) ∧
    ∃ t u, step s = .next t ∧ step (s.hostWrite k v) = .next u ∧
      (k.val ∉ s.cellsRead (decodeWord s.ir) →
        u.regs = t.regs ∧ u.sr = t.sr ∧ u.sp = t.sp ∧ u.pc = t.pc ∧
        ((decodeWord s.ir).storesMemory = false → u.mem = (t.hostWrite k v).mem) ∧
        (∀ b, u.memRead b =
          if phys b = k.val ∧ k.val ∉ s.cellsStored (decodeWord s.ir) then v else t.memRead b) ∧
        (k.val ≠ phys (t.pc - 2).toNat → k.val ≠ phys ((t.pc - 2).toNat + 1) → u.ir = t.ir))

/-! ### Memory -/

/-- Reading after a write gives the byte written at every address of that cell, and what it gave
before at every other; a write changes nothing but memory (R10, R40, R47). -/
def Obligations.ReadAfterWriteThroughWrap : Prop :=
  ∀ (s : State) (a b : Nat) (v : Byte),
    (s.memWrite a v).memRead b = (if a % 65535 = b % 65535 then v else s.memRead b) ∧
    (s.memWrite a v).regs = s.regs ∧ (s.memWrite a v).sr = s.sr ∧ (s.memWrite a v).pc = s.pc ∧
    (s.memWrite a v).sp = s.sp ∧ (s.memWrite a v).ir = s.ir

/-- A fetch is little-endian, at any address, odd ones too; a + 1 wraps after the sum (R43). -/
def Obligations.FetchIsLittleEndian : Prop :=
  ∀ (s : State) (a : Nat),
    (s.fetchWord a).toNat = 256 * (s.memRead ((a + 1) % 65535)).toNat + (s.memRead (a % 65535)).toNat

/-- Two canonical memories that read alike are equal. The canonical form is the model's choice (log
entry 1). -/
def Obligations.CanonicalMemoryIsExtensional : Prop :=
  ∀ m m' : Memory, Memory.wf m = true → Memory.wf m' = true →
    (∀ k, Memory.read k m = Memory.read k m') → m = m'

/-- Every step, and every host write, keeps memory canonical, from any state. The canonical form is the
model's choice (log entry 1). -/
def Obligations.StepKeepsMemoryCanonical : Prop :=
  (∀ s t : State, s.canonical → step s = .next t → t.canonical) ∧
  ∀ (s : State) (k : Fin Config.memSize) (v : Byte), s.canonical → (s.hostWrite k v).canonical

/-- Memory is canonical at reset. The canonical form is the model's choice (log entry 1). -/
def Obligations.ResetMemoryIsCanonical : Prop := State.reset.canonical

/-- Only STR and PUSH write memory, and only LDR, STR, PUSH and POP depend on it (R41, R45). -/
def Obligations.OnlyMemoryInstructionsTouchMemory : Prop :=
  ∀ (i : Instr) (s t : State), exec i s = .next t →
    (i.storesMemory = false → t.mem = s.mem) ∧
    (i.touchesMemory = false → ∀ m, exec i { s with mem := m } = .next { t with mem := m })

/-- A store to a byte of the next instruction is in the word that the same step latches (R51). -/
def Obligations.StoreIsSeenBySameStepsPrefetch : Prop :=
  ∀ (s : State) (rd : Reg) (d : Byte), decodeWord s.ir = .str rd d →
    ∃ t, step s = .next t ∧ t.pc = s.pc + 2 ∧
      t.ir.extractLsb' 0 8 =
        (if phys (s.eaStore d) = phys s.pc.toNat then s.reg rd else s.memRead s.pc.toNat) ∧
      t.ir.extractLsb' 8 8 =
        (if phys (s.eaStore d) = phys (s.pc.toNat + 1) then s.reg rd
         else s.memRead (s.pc.toNat + 1))

/-! ### Who reads and writes which state -/

/-- An instruction other than PUSH and POP neither writes sp nor depends on it (R31). -/
def Obligations.OnlyStackInstructionsUseSp : Prop :=
  ∀ (i : Instr) (s t : State) (v : Word), i.usesStack = false → exec i s = .next t →
    t.sp = s.sp ∧ exec i (s.setSp v) = .next (t.setSp v)

/-- No handler writes ir or depends on it (R32). -/
def Obligations.NoHandlerUsesLatch : Prop :=
  ∀ (i : Instr) (s t : State) (w : Word), exec i s = .next t →
    t.ir = s.ir ∧ exec i (s.setIr w) = .next (t.setIr w)

/-- A handler writes no register but those the summary of R23 lists for it. -/
def Obligations.HandlersWriteOnlyListedRegisters : Prop :=
  ∀ (i : Instr) (s t : State), exec i s = .next t → RegsKept s t i.regWrites

/-- A handler writes no bit of sr but those R25 lists for it; so only POP SR writes SL and bits 7-5
(R25, R26, R27; D6, D7, D9). -/
def Obligations.HandlersWriteOnlyListedFlags : Prop :=
  (∀ (i : Instr) (s t : State), exec i s = .next t → SrKept s t i.srWrites) ∧
  ∀ i : Instr, i ≠ .popSR → i.srWrites &&& 0xF0 = 0

/-- An instruction that is no reader of sr gives the same state, but for the bits of sr that it does
not write, whatever sr is; DIV by zero writes none (R25). -/
def Obligations.OnlyStatusReadersDependOnStatus : Prop :=
  ∀ (i : Instr) (s t : State) (v : Byte), i.readsStatus = false →
    (i = .div → s.reg .r0 ≠ 0) → exec i s = .next t →
    ∃ u, exec i (s.setSr v) = .next u ∧ u.setSr 0 = t.setSr 0 ∧
      u.sr &&& i.srWrites = t.sr &&& i.srWrites

/-- With SL set, STR does not depend on DA; LDR depends neither on DA nor on SL (R26; D9). -/
def Obligations.LinkedModeIgnoresDestinationPair : Prop :=
  ∀ (rd : Reg) (d : Byte) (s t : State) (lo hi v : Byte), rd ≠ .dal → rd ≠ .dah →
    (s.flagSL = true → exec (.str rd d) s = .next t →
      exec (.str rd d) ((s.setReg .dal lo).setReg .dah hi) =
        .next ((t.setReg .dal lo).setReg .dah hi)) ∧
    (exec (.ldr rd d) s = .next t →
      exec (.ldr rd d) (((s.setReg .dal lo).setReg .dah hi).setSr v) =
        .next (((t.setReg .dal lo).setReg .dah hi).setSr v))

/-! ### Class 0 -/

/-- ADD rd, rs (R90, R100; D7). -/
def Obligations.AddRegister : Prop :=
  RowRR 0x0000 .addRR ∧
  ∀ (rd rs : Reg) (s : State), ∃ t, exec (.addRR rd rs) s = .next t ∧
    t.reg rd = BitVec.ofNat 8 ((s.reg rd).toNat + (s.reg rs).toNat) ∧
    SumFlags (s.reg rd) (s.reg rs) (t.reg rd) t ∧ RegisterFrame s t [rd] 0x0F

/-- SUB rd, rs (R91, R101; D7, D8). -/
def Obligations.SubRegister : Prop :=
  RowRR 0x0800 .subRR ∧
  ∀ (rd rs : Reg) (s : State), ∃ t, exec (.subRR rd rs) s = .next t ∧
    ((t.reg rd).toNat : Int) = ((s.reg rd).toNat - (s.reg rs).toNat : Int) % 256 ∧
    DiffFlags (s.reg rd) (s.reg rs) (t.reg rd) t ∧ RegisterFrame s t [rd] 0x0F

/-- XOR, AND, OR rd, rs: V and C unchanged (R92, R102-R104; D7). -/
def Obligations.LogicRegister : Prop :=
  RowRR 0x1000 .xorRR ∧ RowRR 0x1800 .andRR ∧ RowRR 0x2000 .orRR ∧
  ∀ (rd rs : Reg) (s : State),
    (∃ t, exec (.xorRR rd rs) s = .next t ∧ t.reg rd = s.reg rd ^^^ s.reg rs ∧
      ResultFlags (t.reg rd) t ∧ RegisterFrame s t [rd] 0x03) ∧
    (∃ t, exec (.andRR rd rs) s = .next t ∧ t.reg rd = s.reg rd &&& s.reg rs ∧
      ResultFlags (t.reg rd) t ∧ RegisterFrame s t [rd] 0x03) ∧
    (∃ t, exec (.orRR rd rs) s = .next t ∧ t.reg rd = s.reg rd ||| s.reg rs ∧
      ResultFlags (t.reg rd) t ∧ RegisterFrame s t [rd] 0x03)

/-- MUL: the unsigned 16-bit product in r3:r2 (R105; D7, D15). -/
def Obligations.MulWritesWholeProduct : Prop :=
  RowPlain 0x2800 0xF800 .mul ∧
  ∀ s : State, ∃ t, exec .mul s = .next t ∧
    256 * (t.reg .r3).toNat + (t.reg .r2).toNat = (s.reg .r1).toNat * (s.reg .r0).toNat ∧
    (t.flagZ = true ↔ (s.reg .r1).toNat * (s.reg .r0).toNat = 0) ∧
    (t.flagN = true ↔ ((s.reg .r1).toNat * (s.reg .r0).toNat).testBit 15 = true) ∧
    (t.flagC = true ↔ 256 ≤ (s.reg .r1).toNat * (s.reg .r0).toNat) ∧
    RegisterFrame s t [.r2, .r3] 0x0B

/-- DIV: nothing at all for a zero divisor; else the truncated unsigned quotient in r2, r3 = 0
(R106; D15, D16). -/
def Obligations.DivWritesQuotientOrNothing : Prop :=
  RowPlain 0x3000 0xF800 .div ∧
  ∀ s : State,
    (s.reg .r0 = 0 → exec .div s = .next s) ∧
    (s.reg .r0 ≠ 0 → ∃ t, exec .div s = .next t ∧
      (t.reg .r2).toNat * (s.reg .r0).toNat ≤ (s.reg .r1).toNat ∧
      (s.reg .r1).toNat < ((t.reg .r2).toNat + 1) * (s.reg .r0).toNat ∧
      t.reg .r3 = 0 ∧ (t.flagZ = true ↔ t.reg .r2 = 0) ∧ t.flagN = false ∧
      RegisterFrame s t [.r2, .r3] 0x03)

/-! ### Class 1 -/

/-- ADD rd, #imm8 (R120; D7). -/
def Obligations.AddImmediate : Prop :=
  RowRI 0x4000 .addRI ∧
  ∀ (rd : Reg) (imm : Byte) (s : State), ∃ t, exec (.addRI rd imm) s = .next t ∧
    t.reg rd = BitVec.ofNat 8 ((s.reg rd).toNat + imm.toNat) ∧
    SumFlags (s.reg rd) imm (t.reg rd) t ∧ RegisterFrame s t [rd] 0x0F

/-- SUB rd, #imm8 (R121; D7, D8). -/
def Obligations.SubImmediate : Prop :=
  RowRI 0x4800 .subRI ∧
  ∀ (rd : Reg) (imm : Byte) (s : State), ∃ t, exec (.subRI rd imm) s = .next t ∧
    ((t.reg rd).toNat : Int) = ((s.reg rd).toNat - imm.toNat : Int) % 256 ∧
    DiffFlags (s.reg rd) imm (t.reg rd) t ∧ RegisterFrame s t [rd] 0x0F

/-- XOR, AND, OR rd, #imm8: V and C unchanged (R122-R124; D7). -/
def Obligations.LogicImmediate : Prop :=
  RowRI 0x5000 .xorRI ∧ RowRI 0x5800 .andRI ∧ RowRI 0x6000 .orRI ∧
  ∀ (rd : Reg) (imm : Byte) (s : State),
    (∃ t, exec (.xorRI rd imm) s = .next t ∧ t.reg rd = s.reg rd ^^^ imm ∧
      ResultFlags (t.reg rd) t ∧ RegisterFrame s t [rd] 0x03) ∧
    (∃ t, exec (.andRI rd imm) s = .next t ∧ t.reg rd = s.reg rd &&& imm ∧
      ResultFlags (t.reg rd) t ∧ RegisterFrame s t [rd] 0x03) ∧
    (∃ t, exec (.orRI rd imm) s = .next t ∧ t.reg rd = s.reg rd ||| imm ∧
      ResultFlags (t.reg rd) t ∧ RegisterFrame s t [rd] 0x03)

/-- LSL rd, #n: the count is not masked; C is bit 8 - n, 0 above 8, unchanged for n = 0 (R126; D7,
D17). -/
def Obligations.ShiftLeft : Prop :=
  RowRI 0x6800 .lsl ∧
  ∀ (rd : Reg) (n : Byte) (s : State), ∃ t, exec (.lsl rd n) s = .next t ∧
    (t.reg rd).toNat = (s.reg rd).toNat * 2 ^ n.toNat % 256 ∧
    ResultFlags (t.reg rd) t ∧
    (n ≠ 0 → (t.flagC = true ↔ n.toNat ≤ 8 ∧ (s.reg rd).getLsbD (8 - n.toNat) = true)) ∧
    RegisterFrame s t [rd] (if n = 0 then 0x03 else 0x0B)

/-- LSR rd, #n: logical; C is bit n - 1, 0 above 8, unchanged for n = 0 (R127; D7, D17). -/
def Obligations.ShiftRight : Prop :=
  RowRI 0x7000 .lsr ∧
  ∀ (rd : Reg) (n : Byte) (s : State), ∃ t, exec (.lsr rd n) s = .next t ∧
    (t.reg rd).toNat = (s.reg rd).toNat / 2 ^ n.toNat ∧
    ResultFlags (t.reg rd) t ∧
    (n ≠ 0 → (t.flagC = true ↔ n.toNat ≤ 8 ∧ (s.reg rd).getLsbD (n.toNat - 1) = true)) ∧
    RegisterFrame s t [rd] (if n = 0 then 0x03 else 0x0B)

/-- The carry of a shift by 1 or more is the last bit shifted out: bit 8 of a * 2^n, and the lowest
bit of a / 2^(n-1) (R125; D17). -/
def Obligations.ShiftCarryIsLastBitOut : Prop :=
  ∀ (rd : Reg) (n : Byte) (s t : State), n ≠ 0 →
    (exec (.lsl rd n) s = .next t →
      t.flagC = ((s.reg rd).toNat * 2 ^ n.toNat).testBit 8) ∧
    (exec (.lsr rd n) s = .next t →
      t.flagC = ((s.reg rd).toNat / 2 ^ (n.toNat - 1)).testBit 0)

/-- V of every ADD and SUB says that the signed result is out of -128..127; the formulas are R90's
and R91's (a consequence, not a rule). -/
def Obligations.OverflowFlagIsSignedOverflow : Prop :=
  ∀ (rd rs : Reg) (imm : Byte) (s t : State),
    (exec (.addRR rd rs) s = .next t → (t.flagV = true ↔
      (s.reg rd).toInt + (s.reg rs).toInt < -128 ∨ 127 < (s.reg rd).toInt + (s.reg rs).toInt)) ∧
    (exec (.subRR rd rs) s = .next t → (t.flagV = true ↔
      (s.reg rd).toInt - (s.reg rs).toInt < -128 ∨ 127 < (s.reg rd).toInt - (s.reg rs).toInt)) ∧
    (exec (.addRI rd imm) s = .next t → (t.flagV = true ↔
      (s.reg rd).toInt + imm.toInt < -128 ∨ 127 < (s.reg rd).toInt + imm.toInt)) ∧
    (exec (.subRI rd imm) s = .next t → (t.flagV = true ↔
      (s.reg rd).toInt - imm.toInt < -128 ∨ 127 < (s.reg rd).toInt - imm.toInt))

/-! ### Class 2 -/

/-- The effective addresses, not truncated before the wrap, and the cells they name (R140; D4, D9,
D10, D11). -/
def Obligations.EffectiveAddresses : Prop :=
  ∀ (s : State) (d : Byte),
    s.eaLoad d = 256 * (s.reg .r5).toNat + (s.reg .r4).toNat + d.toNat ∧
    s.eaLoad d ≤ 65790 ∧
    (s.sr.getLsbD 4 = false →
      s.eaStore d = 256 * (s.reg .r7).toNat + (s.reg .r6).toNat + d.toNat) ∧
    (s.sr.getLsbD 4 = true →
      s.eaStore d = 256 * (s.reg .r5).toNat + (s.reg .r4).toNat + d.toNat) ∧
    phys (s.eaLoad d) = s.eaLoad d % 65535 ∧ phys (s.eaStore d) = s.eaStore d % 65535

/-- LDR rd, [#imm8]: the address is formed before the write, so rd may be r4 or r5 (R141; D10). -/
def Obligations.LoadReadsThroughSourcePair : Prop :=
  RowRI 0x8000 .ldr ∧
  ∀ (rd : Reg) (d : Byte) (s : State), ∃ t, exec (.ldr rd d) s = .next t ∧
    t.reg rd = s.memRead (256 * (s.reg .r5).toNat + (s.reg .r4).toNat + d.toNat) ∧
    RegisterFrame s t [rd] 0x00

/-- STR rd, [#imm8]: one byte, at the address of `State.eaStore` (R142; D9, D10). -/
def Obligations.StoreWritesOneCell : Prop :=
  RowRI 0x8800 .str ∧
  ∀ (rd : Reg) (d : Byte) (s : State), ∃ t, exec (.str rd d) s = .next t ∧
    t.memRead (s.eaStore d) = s.reg rd ∧
    s.eaStore d = (if s.sr.getLsbD 4 = true then 256 * (s.reg .r5).toNat + (s.reg .r4).toNat
      else 256 * (s.reg .r7).toNat + (s.reg .r6).toNat) + d.toNat ∧
    MemKeptBut s t (s.eaStore d) ∧
    t.regs = s.regs ∧ t.sr = s.sr ∧ t.sp = s.sp ∧ t.pc = s.pc ∧ t.ir = s.ir

/-- PUSH rd writes the register at sp and decrements sp (R143, R144; D18). -/
def Obligations.PushRegister : Prop :=
  RowSel 0x9000 .pushReg ∧
  ∀ (rd : Reg) (s : State), ∃ t, exec (.pushReg rd) s = .next t ∧
    t.memRead s.sp.toNat = s.reg rd ∧ t.sp = s.sp - 1 ∧ MemKeptBut s t s.sp.toNat ∧
    t.regs = s.regs ∧ t.sr = s.sr ∧ t.pc = s.pc ∧ t.ir = s.ir

/-- PUSH SR writes all eight bits of sr at sp and decrements sp (R145; D6, D18). -/
def Obligations.PushStatus : Prop :=
  RowPlain 0x9001 0xF803 .pushSR ∧
  ∀ s : State, ∃ t, exec .pushSR s = .next t ∧
    t.memRead s.sp.toNat = s.sr ∧ t.sp = s.sp - 1 ∧ MemKeptBut s t s.sp.toNat ∧
    t.regs = s.regs ∧ t.sr = s.sr ∧ t.pc = s.pc ∧ t.ir = s.ir

/-- PUSH PC writes the high byte of pc at sp, then the low byte at sp - 1. The two addresses name one
cell just when sp = 0, and then the low byte, written last, is what it holds: that reading is DEDUCED
from R146 with R143 and R40, and unsafe (log entry 9; D12, D19). -/
def Obligations.PushPcHighByteFirst : Prop :=
  RowPlain 0x9002 0xF803 .pushPC ∧
  ∀ s : State, ∃ t, exec .pushPC s = .next t ∧
    t.memRead (s.sp - 1).toNat = s.pc.extractLsb' 0 8 ∧
    (s.sp ≠ 0 → t.memRead s.sp.toNat = s.pc.extractLsb' 8 8) ∧
    (∀ b, phys b ≠ phys s.sp.toNat → phys b ≠ phys (s.sp - 1).toNat →
      t.memRead b = s.memRead b) ∧
    t.sp = s.sp - 2 ∧ t.regs = s.regs ∧ t.sr = s.sr ∧ t.pc = s.pc ∧ t.ir = s.ir

/-- POP rd increments sp and loads the register from there (R148; D18). -/
def Obligations.PopRegister : Prop :=
  RowSel 0x9800 .popReg ∧
  ∀ (rd : Reg) (s : State), ∃ t, exec (.popReg rd) s = .next t ∧
    t.sp = s.sp + 1 ∧ t.reg rd = s.memRead (s.sp + 1).toNat ∧
    RegsKept s t [rd] ∧ t.sr = s.sr ∧ t.pc = s.pc ∧ t.ir = s.ir ∧ MemKept s t

/-- POP SR increments sp and loads all eight bits of sr, SL and bits 7-5 too; no other instruction
writes SL or bits 7-5 (R149; D6, D9, D18). -/
def Obligations.PopStatus : Prop :=
  RowPlain 0x9801 0xF803 .popSR ∧
  (∀ s : State, ∃ t, exec .popSR s = .next t ∧
    t.sp = s.sp + 1 ∧ t.sr = s.memRead (s.sp + 1).toNat ∧
    t.regs = s.regs ∧ t.pc = s.pc ∧ t.ir = s.ir ∧ MemKept s t) ∧
  ∀ (i : Instr) (s t : State), i ≠ .popSR → exec i s = .next t →
    t.sr &&& 0xF0 = s.sr &&& 0xF0

/-- POP PC loads pc from sp + 1 (low byte) and sp + 2 (high byte), with no minus 2: the step then
latches the word at that address and leaves pc 2 above it (R150; D12, D19, D25). -/
def Obligations.PopPcLandsOnPoppedAddress : Prop :=
  RowPlain 0x9802 0xF803 .popPC ∧
  (∀ s : State, ∃ t, exec .popPC s = .next t ∧
    t.pc.toNat = 256 * (s.memRead (s.sp + 2).toNat).toNat + (s.memRead (s.sp + 1).toNat).toNat ∧
    t.sp = s.sp + 2 ∧ t.regs = s.regs ∧ t.sr = s.sr ∧ t.ir = s.ir ∧ MemKept s t) ∧
  ∀ s t : State, decodeWord s.ir = .popPC → exec .popPC s = .next t →
    ∃ u, step s = .next u ∧ u.ir = s.fetchWord t.pc.toNat ∧ u.pc = t.pc + 2

/-- MOV rd, rs (R152; D5, D7). -/
def Obligations.MoveCopiesRegister : Prop :=
  RowRR 0xA000 .mov ∧
  ∀ (rd rs : Reg) (s : State), ∃ t, exec (.mov rd rs) s = .next t ∧
    t.reg rd = s.reg rs ∧ RegisterFrame s t [rd] 0x00

/-- MVS rd, SR; MVS rd, PCL; MVS rd, PCH: the bytes of sr and of pc (R154-R156; D20). -/
def Obligations.MoveSpecialRegisters : Prop :=
  RowSel 0xA801 .mvsSR ∧ RowSel 0xA802 .mvsPCL ∧ RowSel 0xA803 .mvsPCH ∧
  ∀ (rd : Reg) (s : State),
    (∃ t, exec (.mvsSR rd) s = .next t ∧ t.reg rd = s.sr ∧ RegisterFrame s t [rd] 0x00) ∧
    (∃ t, exec (.mvsPCL rd) s = .next t ∧ (t.reg rd).toNat = s.pc.toNat % 256 ∧
      RegisterFrame s t [rd] 0x00) ∧
    (∃ t, exec (.mvsPCH rd) s = .next t ∧ (t.reg rd).toNat = s.pc.toNat / 256 ∧
      RegisterFrame s t [rd] 0x00)

/-- PUSH rd, then POP rd fetched from the next address, restores sp and every register, for every
value and every sp, unless the pushed byte changed a byte of the POP itself; only the pushed cell
changes (R144; C9). -/
def Obligations.PushThenPopRestores : Prop :=
  ∀ (s : State) (rd : Reg), decodeWord s.ir = .pushReg rd →
    decodeWord (s.fetchWord s.pc.toNat) = .popReg rd →
    ((phys s.sp.toNat ≠ phys s.pc.toNat ∧ phys s.sp.toNat ≠ phys (s.pc.toNat + 1)) ∨
      s.memRead s.sp.toNat = s.reg rd) →
    ∃ t, Host.Core.run Sys2Proof.core 2 s = .next t ∧
      (∀ r, t.reg r = s.reg r) ∧ t.sp = s.sp ∧ t.sr = s.sr ∧ t.pc = s.pc + 4 ∧
      MemKeptBut s t s.sp.toNat

/-- A POP PC with sp where PUSH PC left it, and the two pushed bytes still in memory, whatever else was
stored or changed in between, resumes at the instruction after the PUSH: the step latches the word at
the saved pc. Not at sp = 0, where the two pushes share cell 0 (log entry 9; R146, R150; C6). -/
def Obligations.PopPcReturnsToPushedAddress : Prop :=
  ∀ s t r : State, s.sp ≠ 0 → exec .pushPC s = .next t →
    r.sp = t.sp → r.memRead s.sp.toNat = t.memRead s.sp.toNat →
    r.memRead (s.sp - 1).toNat = t.memRead (s.sp - 1).toNat → decodeWord r.ir = .popPC →
    ∃ u, step r = .next u ∧ u.ir = r.fetchWord s.pc.toNat ∧ u.pc = s.pc + 2 ∧ u.sp = s.sp

/-! ### Class 3 -/

/-- JMP #t: pc is exactly t after the step, and the word at t - 2 executes next (R171; D21). -/
def Obligations.JumpLandsOnAbsoluteTarget : Prop :=
  (∀ w : Word, w &&& 0xF800 = 0xC000 → decodeWord w = .jmp (w.extractLsb' 0 8)) ∧
  (∀ (a : Byte) (s : State), ∃ t, exec (.jmp a) s = .next t ∧
    (t.pc.toNat : Int) = ((a.toNat : Int) - 2) % 65536 ∧ BranchFrame s t) ∧
  ∀ (a : Byte) (s : State), decodeWord s.ir = .jmp a →
    ∃ u, step s = .next u ∧ u.pc.toNat = a.toNat ∧
      u.ir = s.fetchWord ((a.toNat + 65534) % 65536)

/-- JRL #d writes pc + d - 2 modulo 65536 (R172; D22). -/
def Obligations.RelativeJump : Prop :=
  RowBA 0xF000 .jrl ∧
  (∀ (d : Int) (s : State), ∃ t, exec (.jrl d) s = .next t ∧ MovedBy s t d ∧ BranchFrame s t) ∧
  ∀ s : State, decodeWord s.ir = .jrl 0 → s.ir = s.fetchWord (s.pc - 2).toNat →
    step s = .next s

/-- JLE, JGE, JEQ compare two registers as unsigned values and move pc only when taken (R173-R175;
D23). -/
def Obligations.CompareBranches : Prop :=
  RowBC 0xC800 .jle ∧ RowBC 0xD000 .jge ∧ RowBC 0xD800 .jeq ∧
  ∀ (rd rs : Reg) (d : Int) (s : State),
    (∃ t, exec (.jle rd rs d) s = .next t ∧ BranchFrame s t ∧
      (if (s.reg rd).toNat ≤ (s.reg rs).toNat then MovedBy s t d else t.pc = s.pc)) ∧
    (∃ t, exec (.jge rd rs d) s = .next t ∧ BranchFrame s t ∧
      (if (s.reg rd).toNat ≥ (s.reg rs).toNat then MovedBy s t d else t.pc = s.pc)) ∧
    (∃ t, exec (.jeq rd rs d) s = .next t ∧ BranchFrame s t ∧
      (if s.reg rd = s.reg rs then MovedBy s t d else t.pc = s.pc))

/-- JLZ is taken when N = 1, JGZ when N = 0 and Z = 0 (R176, R177; D24). -/
def Obligations.FlagBranches : Prop :=
  RowBA 0xE000 .jlz ∧ RowBA 0xE800 .jgz ∧
  ∀ (d : Int) (s : State),
    (∃ t, exec (.jlz d) s = .next t ∧ BranchFrame s t ∧
      (if s.sr.getLsbD 1 = true then MovedBy s t d else t.pc = s.pc)) ∧
    (∃ t, exec (.jgz d) s = .next t ∧ BranchFrame s t ∧
      (if s.sr.getLsbD 1 = false ∧ s.sr.getLsbD 0 = false then MovedBy s t d else t.pc = s.pc))

/-- A taken relative branch at address A (pc = A + 2) leaves pc = A + d + 2 and latches the word at
A + d; with no delay slot (R170). -/
def Obligations.TakenBranchLatchesTargetWord : Prop :=
  ∀ (s : State) (d : Int),
    (decodeWord s.ir = .jrl d ∨
     (∃ rd rs, decodeWord s.ir = .jle rd rs d ∧ (s.reg rd).toNat ≤ (s.reg rs).toNat) ∨
     (∃ rd rs, decodeWord s.ir = .jge rd rs d ∧ (s.reg rs).toNat ≤ (s.reg rd).toNat) ∨
     (∃ rd rs, decodeWord s.ir = .jeq rd rs d ∧ s.reg rd = s.reg rs) ∨
     (decodeWord s.ir = .jlz d ∧ s.flagN = true) ∨
     (decodeWord s.ir = .jgz d ∧ s.flagN = false ∧ s.flagZ = false)) →
    ∃ t, step s = .next t ∧
      (t.pc.toNat : Int) = ((s.pc.toNat : Int) + d) % 65536 ∧
      t.ir = s.fetchWord (((s.pc.toNat : Int) + d - 2) % 65536).toNat

/-! ### No-ops -/

/-- Every word of the eight no-op rows changes nothing but ir and pc, in any state; NOP assembles to
0x3800 (R107, R128, R147, R151, R153, R157, R158, R178; D2, D18, D20). -/
def Obligations.NoOpsChangeOnlyLatchAndPc : Prop :=
  (∀ here, assemble here .nop [] = some .nopRR) ∧ encode .nopRR = 0x3800 ∧
  (∀ i ∈ [Instr.nopRR, .nopRI, .pushNop, .popNop, .mvsNop, .nopMem6, .nopMem7, .nopBranch],
    ∀ s : State, exec i s = .next s) ∧
  ∀ s : State,
    (s.ir &&& 0xF800 = 0x3800 ∨ s.ir &&& 0xF800 = 0x7800 ∨ s.ir &&& 0xF803 = 0x9003 ∨
     s.ir &&& 0xF803 = 0x9803 ∨ s.ir &&& 0xF803 = 0xA800 ∨ s.ir &&& 0xF800 = 0xB000 ∨
     s.ir &&& 0xF800 = 0xB800 ∨ s.ir &&& 0xF800 = 0xF800) →
    step s = .next { s with ir := s.fetchWord s.pc.toNat, pc := s.pc + 2 }
end

