-- ==== Sys2Proof/Laws/Memory.lean ====
section
/-! SUPPORT. What the memory operations do, cell by cell, and that each keeps the canonical form. The
read laws hold of every list; only the canonical form needs `Memory.wf`. -/

namespace Sys2Proof.Machine

@[simp] theorem Memory.read_nil (k : Nat) : Memory.read k [] = Config.unlistedByte := rfl

@[simp] theorem Memory.read_cons (k : Nat) (c : Host.Cell) (m : Memory) :
    Memory.read k (c :: m) = if c.1 = k then c.2 else Memory.read k m := rfl

theorem Memory.read_erase (k j : Nat) (m : Memory) :
    Memory.read j (Memory.erase k m) = if j = k then Config.unlistedByte else Memory.read j m := by
  induction m with
  | nil => simp [Memory.erase]
  | cons c m ih =>
    by_cases hc : c.1 = k
    · rw [Memory.erase, if_pos hc, ih, Memory.read_cons]
      by_cases hj : j = k
      · rw [if_pos hj, if_pos hj]
      · rw [if_neg hj, if_neg hj, if_neg (by omega)]
    · rw [Memory.erase, if_neg hc, Memory.read_cons, Memory.read_cons, ih]
      by_cases hj : c.1 = j
      · rw [if_pos hj, if_pos hj, if_neg (by omega)]
      · rw [if_neg hj, if_neg hj]

theorem Memory.read_insert (k j : Nat) (v : Byte) (m : Memory) :
    Memory.read j (Memory.insert k v m) = if j = k then v else Memory.read j m := by
  induction m with
  | nil => simp [Memory.insert, eq_comm]
  | cons c m ih =>
    by_cases hlt : k < c.1
    · rw [Memory.insert, if_pos hlt, Memory.read_cons]
      by_cases hj : j = k
      · rw [if_pos hj.symm, if_pos hj]
      · rw [if_neg (by simpa using fun h => hj h.symm), if_neg hj]
    · by_cases heq : k = c.1
      · rw [Memory.insert, if_neg hlt, if_pos heq, Memory.read_cons, Memory.read_cons]
        by_cases hj : j = k
        · rw [if_pos hj.symm, if_pos hj]
        · rw [if_neg (by simpa using fun h => hj h.symm), if_neg hj, if_neg (by omega)]
      · rw [Memory.insert, if_neg hlt, if_neg heq, Memory.read_cons, Memory.read_cons, ih]
        by_cases hj : c.1 = j
        · rw [if_pos hj, if_pos hj, if_neg (by omega)]
        · rw [if_neg hj, if_neg hj]

/-- Everything a write does, seen through reads: the cell holds the byte, every other is as before. -/
theorem Memory.read_write (k j : Nat) (v : Byte) (m : Memory) :
    Memory.read j (Memory.write k v m) = if j = k then v else Memory.read j m := by
  by_cases hv : v = Config.unlistedByte
  · rw [Memory.write, if_pos hv, Memory.read_erase, hv]
  · rw [Memory.write, if_neg hv, Memory.read_insert]

/-! ### The canonical form -/

/-- What the form says of a non-empty list. -/
theorem Memory.wfFrom_cons (lo : Nat) (c : Host.Cell) (m : Memory) :
    Memory.wfFrom lo (c :: m) = true ↔
      lo ≤ c.1 ∧ c.1 < Config.memSize ∧ c.2 ≠ Config.unlistedByte ∧
        Memory.wfFrom (c.1 + 1) m = true := by
  simp [Memory.wfFrom, and_assoc]

/-- A form from lo up is one from any lower address up. -/
theorem Memory.wfFrom_mono {lo lo' : Nat} (h : lo' ≤ lo) (m : Memory)
    (hm : Memory.wfFrom lo m = true) : Memory.wfFrom lo' m = true := by
  cases m with
  | nil => rfl
  | cons c m =>
    rw [Memory.wfFrom_cons] at hm ⊢
    exact ⟨by omega, hm.2⟩

theorem Memory.wfFrom_erase (k lo : Nat) (m : Memory) (hm : Memory.wfFrom lo m = true) :
    Memory.wfFrom lo (Memory.erase k m) = true := by
  induction m generalizing lo with
  | nil => rfl
  | cons c m ih =>
    rw [Memory.wfFrom_cons] at hm
    obtain ⟨hlo, hlt, hv, hm⟩ := hm
    by_cases hc : c.1 = k
    · rw [Memory.erase, if_pos hc]
      exact Memory.wfFrom_mono (by omega) _ (ih _ hm)
    · rw [Memory.erase, if_neg hc, Memory.wfFrom_cons]
      exact ⟨hlo, hlt, hv, ih _ hm⟩

theorem Memory.wfFrom_insert (k lo : Nat) (v : Byte) (m : Memory) (hk : lo ≤ k)
    (hk' : k < Config.memSize) (hv : v ≠ Config.unlistedByte) (hm : Memory.wfFrom lo m = true) :
    Memory.wfFrom lo (Memory.insert k v m) = true := by
  induction m generalizing lo with
  | nil => exact (Memory.wfFrom_cons lo (k, v) []).2 ⟨hk, hk', hv, rfl⟩
  | cons c m ih =>
    have hcm := (Memory.wfFrom_cons lo c m).1 hm
    obtain ⟨hlo, hlt, hcv, htl⟩ := hcm
    by_cases h : k < c.1
    · rw [Memory.insert, if_pos h, Memory.wfFrom_cons]
      exact ⟨hk, hk', hv, (Memory.wfFrom_cons _ c m).2 ⟨h, hlt, hcv, htl⟩⟩
    · by_cases h' : k = c.1
      · rw [Memory.insert, if_neg h, if_pos h', Memory.wfFrom_cons]
        exact ⟨hk, hk', hv, by rw [h']; exact htl⟩
      · rw [Memory.insert, if_neg h, if_neg h', Memory.wfFrom_cons]
        exact ⟨hlo, hlt, hcv, ih _ (by omega) htl⟩

/-- A write inside the buffer keeps the canonical form. -/
theorem Memory.wf_write (k : Nat) (v : Byte) (m : Memory) (hk : k < Config.memSize)
    (hm : Memory.wf m = true) : Memory.wf (Memory.write k v m) = true := by
  by_cases hv : v = Config.unlistedByte
  · rw [Memory.write, if_pos hv]
    exact Memory.wfFrom_erase k 0 m hm
  · rw [Memory.write, if_neg hv]
    exact Memory.wfFrom_insert k 0 v m (Nat.zero_le k) hk hv hm

/-- Below the form's first address every cell reads as unlisted. -/
theorem Memory.read_below (lo k : Nat) (m : Memory) (hm : Memory.wfFrom lo m = true) (hk : k < lo) :
    Memory.read k m = Config.unlistedByte := by
  induction m generalizing lo with
  | nil => rfl
  | cons c m ih =>
    rw [Memory.wfFrom_cons] at hm
    rw [Memory.read_cons, if_neg (by omega)]
    exact ih _ hm.2.2.2 (by omega)

/-! ### Addresses -/

/-- An address always names a cell of the buffer (R40). -/
theorem phys_lt (a : Nat) : phys a < Config.memSize :=
  Nat.mod_lt a (by decide)

/-- A cell's own index names it. -/
theorem phys_of_lt {a : Nat} (h : a < Config.memSize) : phys a = a := Nat.mod_eq_of_lt h

@[simp] theorem phys_phys (a : Nat) : phys (phys a) = phys a := phys_of_lt (phys_lt a)

/-- A host write is read back in its cell, and every other cell reads as before (R228). -/
theorem State.hostWrite_memRead (s : State) (k : Fin Config.memSize) (v : Byte) (b : Nat) :
    (s.hostWrite k v).memRead b = if phys b = k.val then v else s.memRead b :=
  Memory.read_write _ _ _ _

/-- The memory operations of a state keep its memory canonical. -/
theorem State.memWrite_wf (s : State) (a : Nat) (v : Byte) (h : Memory.wf s.mem = true) :
    Memory.wf (s.memWrite a v).mem = true :=
  Memory.wf_write _ _ _ (phys_lt a) h

theorem State.hostWrite_wf (s : State) (k : Fin Config.memSize) (v : Byte)
    (h : Memory.wf s.mem = true) : Memory.wf (s.hostWrite k v).mem = true :=
  Memory.wf_write _ _ _ k.isLt h

theorem State.push8_wf (s : State) (v : Byte) (h : Memory.wf s.mem = true) :
    Memory.wf (s.push8 v).mem = true :=
  State.memWrite_wf s _ v h

/-- Reset memory has the form. -/
theorem State.reset_mem_wf : Memory.wf State.reset.mem = true := rfl

end Sys2Proof.Machine
end

