-- ==== Sys2Proof/Laws/State.lean ====
section
/-! SUPPORT. One lemma per field of State per update, each true by rfl and tagged simp, so that no proof
unfolds a record update. -/

namespace Sys2Proof.Machine

variable (s : State) (r : Reg) (v : Byte) (w : Word) (a : Nat)

@[simp] theorem State.setReg_regs : (s.setReg r v).regs = s.regs.set r v := rfl
@[simp] theorem State.setReg_sr : (s.setReg r v).sr = s.sr := rfl
@[simp] theorem State.setReg_pc : (s.setReg r v).pc = s.pc := rfl
@[simp] theorem State.setReg_sp : (s.setReg r v).sp = s.sp := rfl
@[simp] theorem State.setReg_ir : (s.setReg r v).ir = s.ir := rfl
@[simp] theorem State.setReg_mem : (s.setReg r v).mem = s.mem := rfl

@[simp] theorem State.setSr_regs : (s.setSr v).regs = s.regs := rfl
@[simp] theorem State.setSr_sr : (s.setSr v).sr = v := rfl
@[simp] theorem State.setSr_pc : (s.setSr v).pc = s.pc := rfl
@[simp] theorem State.setSr_sp : (s.setSr v).sp = s.sp := rfl
@[simp] theorem State.setSr_ir : (s.setSr v).ir = s.ir := rfl
@[simp] theorem State.setSr_mem : (s.setSr v).mem = s.mem := rfl

@[simp] theorem State.setPc_regs : (s.setPc w).regs = s.regs := rfl
@[simp] theorem State.setPc_sr : (s.setPc w).sr = s.sr := rfl
@[simp] theorem State.setPc_pc : (s.setPc w).pc = w := rfl
@[simp] theorem State.setPc_sp : (s.setPc w).sp = s.sp := rfl
@[simp] theorem State.setPc_ir : (s.setPc w).ir = s.ir := rfl
@[simp] theorem State.setPc_mem : (s.setPc w).mem = s.mem := rfl

@[simp] theorem State.setSp_regs : (s.setSp w).regs = s.regs := rfl
@[simp] theorem State.setSp_sr : (s.setSp w).sr = s.sr := rfl
@[simp] theorem State.setSp_pc : (s.setSp w).pc = s.pc := rfl
@[simp] theorem State.setSp_sp : (s.setSp w).sp = w := rfl
@[simp] theorem State.setSp_ir : (s.setSp w).ir = s.ir := rfl
@[simp] theorem State.setSp_mem : (s.setSp w).mem = s.mem := rfl

@[simp] theorem State.setIr_regs : (s.setIr w).regs = s.regs := rfl
@[simp] theorem State.setIr_sr : (s.setIr w).sr = s.sr := rfl
@[simp] theorem State.setIr_pc : (s.setIr w).pc = s.pc := rfl
@[simp] theorem State.setIr_sp : (s.setIr w).sp = s.sp := rfl
@[simp] theorem State.setIr_ir : (s.setIr w).ir = w := rfl
@[simp] theorem State.setIr_mem : (s.setIr w).mem = s.mem := rfl

@[simp] theorem State.memWrite_regs : (s.memWrite a v).regs = s.regs := rfl
@[simp] theorem State.memWrite_sr : (s.memWrite a v).sr = s.sr := rfl
@[simp] theorem State.memWrite_pc : (s.memWrite a v).pc = s.pc := rfl
@[simp] theorem State.memWrite_sp : (s.memWrite a v).sp = s.sp := rfl
@[simp] theorem State.memWrite_ir : (s.memWrite a v).ir = s.ir := rfl
@[simp] theorem State.memWrite_mem :
    (s.memWrite a v).mem = Memory.write (phys a) v s.mem := rfl

variable (k : Fin Config.memSize)

@[simp] theorem State.hostWrite_regs : (s.hostWrite k v).regs = s.regs := rfl
@[simp] theorem State.hostWrite_sr : (s.hostWrite k v).sr = s.sr := rfl
@[simp] theorem State.hostWrite_pc : (s.hostWrite k v).pc = s.pc := rfl
@[simp] theorem State.hostWrite_sp : (s.hostWrite k v).sp = s.sp := rfl
@[simp] theorem State.hostWrite_ir : (s.hostWrite k v).ir = s.ir := rfl
@[simp] theorem State.hostWrite_mem : (s.hostWrite k v).mem = Memory.write k.val v s.mem := rfl

/-! What the observers see of each update. -/

@[simp] theorem State.setSr_reg (q : Reg) : (s.setSr v).reg q = s.reg q := rfl
@[simp] theorem State.setPc_reg (q : Reg) : (s.setPc w).reg q = s.reg q := rfl
@[simp] theorem State.setSp_reg (q : Reg) : (s.setSp w).reg q = s.reg q := rfl
@[simp] theorem State.setIr_reg (q : Reg) : (s.setIr w).reg q = s.reg q := rfl
@[simp] theorem State.memWrite_reg (q : Reg) : (s.memWrite a v).reg q = s.reg q := rfl
@[simp] theorem State.hostWrite_reg (q : Reg) : (s.hostWrite k v).reg q = s.reg q := rfl

@[simp] theorem State.setReg_memRead (b : Nat) : (s.setReg r v).memRead b = s.memRead b := rfl
@[simp] theorem State.setSr_memRead (b : Nat) : (s.setSr v).memRead b = s.memRead b := rfl
@[simp] theorem State.setPc_memRead (b : Nat) : (s.setPc w).memRead b = s.memRead b := rfl
@[simp] theorem State.setSp_memRead (b : Nat) : (s.setSp w).memRead b = s.memRead b := rfl
@[simp] theorem State.setIr_memRead (b : Nat) : (s.setIr w).memRead b = s.memRead b := rfl

end Sys2Proof.Machine
end

