-- ==== Sys2Proof/Laws/Ops.lean ====
section
/-! SUPPORT. What each shared operation over registers, the stack and the latch does, once. -/

namespace Sys2Proof.Machine

/-! ### Registers -/

theorem RegFile.get_set (f : RegFile) (r q : Reg) (v : Byte) :
    (f.set r v).get q = if q = r then v else f.get q := by
  cases r <;> cases q <;> rfl

/-- A register file is its eight values. -/
theorem RegFile.ext_get (f g : RegFile) (h : ∀ r, f.get r = g.get r) : f = g := by
  have h0 := h .r0; have h1 := h .r1; have h2 := h .r2; have h3 := h .r3
  have h4 := h .r4; have h5 := h .r5; have h6 := h .r6; have h7 := h .r7
  cases f; cases g
  simp only [RegFile.get] at h0 h1 h2 h3 h4 h5 h6 h7
  simp only [h0, h1, h2, h3, h4, h5, h6, h7]

theorem State.reg_setReg (s : State) (r q : Reg) (v : Byte) :
    (s.setReg r v).reg q = if q = r then v else s.reg q :=
  RegFile.get_set s.regs r q v

@[simp] theorem State.reg_setReg_same (s : State) (r : Reg) (v : Byte) :
    (s.setReg r v).reg r = v := by
  rw [State.reg_setReg, if_pos rfl]

theorem State.reg_setReg_ne (s : State) {r q : Reg} (v : Byte) (h : q ≠ r) :
    (s.setReg r v).reg q = s.reg q := by
  rw [State.reg_setReg, if_neg h]

/-! ### Words and bytes (20_memory.md R43) -/

theorem wordOfBytes_toNat (lo hi : Byte) :
    (wordOfBytes lo hi).toNat = 256 * hi.toNat + lo.toNat := by
  have h := hi.isLt
  have hl := lo.isLt
  rw [wordOfBytes, BitVec.toNat_append, Nat.shiftLeft_eq, Nat.mul_comm,
    ← Nat.two_pow_add_eq_or_of_lt hl]

theorem wordOfBytes_bytes (w : Word) :
    wordOfBytes (w.extractLsb' 0 8) (w.extractLsb' 8 8) = w := by
  apply BitVec.eq_of_toNat_eq
  have h := w.isLt
  simp only [wordOfBytes_toNat, BitVec.extractLsb'_toNat, Nat.shiftRight_eq_div_pow]
  omega

theorem wordOfBytes_low (lo hi : Byte) : (wordOfBytes lo hi).extractLsb' 0 8 = lo := by
  apply BitVec.eq_of_toNat_eq
  have h := lo.isLt
  simp only [BitVec.extractLsb'_toNat, wordOfBytes_toNat, Nat.shiftRight_eq_div_pow]
  omega

theorem wordOfBytes_high (lo hi : Byte) : (wordOfBytes lo hi).extractLsb' 8 8 = hi := by
  apply BitVec.eq_of_toNat_eq
  have h := hi.isLt
  have hl := lo.isLt
  simp only [BitVec.extractLsb'_toNat, wordOfBytes_toNat, Nat.shiftRight_eq_div_pow]
  omega

/-! ### The stack (43_memory_stack.md R143) -/

section
variable (s : State) (v : Byte)

@[simp] theorem State.push8_regs : (s.push8 v).regs = s.regs := rfl
@[simp] theorem State.push8_sr : (s.push8 v).sr = s.sr := rfl
@[simp] theorem State.push8_pc : (s.push8 v).pc = s.pc := rfl
@[simp] theorem State.push8_sp : (s.push8 v).sp = s.sp - 1 := rfl
@[simp] theorem State.push8_ir : (s.push8 v).ir = s.ir := rfl
@[simp] theorem State.push8_mem :
    (s.push8 v).mem = Memory.write (phys s.sp.toNat) v s.mem := rfl

/-- What a push leaves in memory. -/
theorem State.push8_memRead (b : Nat) :
    (s.push8 v).memRead b = if phys b = phys s.sp.toNat then v else s.memRead b :=
  Memory.read_write _ _ _ _

@[simp] theorem State.pop8_regs : s.pop8.regs = s.regs := rfl
@[simp] theorem State.pop8_sr : s.pop8.sr = s.sr := rfl
@[simp] theorem State.pop8_pc : s.pop8.pc = s.pc := rfl
@[simp] theorem State.pop8_sp : s.pop8.sp = s.sp + 1 := rfl
@[simp] theorem State.pop8_ir : s.pop8.ir = s.ir := rfl
@[simp] theorem State.pop8_mem : s.pop8.mem = s.mem := rfl
@[simp] theorem State.pop8_memRead (b : Nat) : s.pop8.memRead b = s.memRead b := rfl
theorem State.popped8_eq : s.popped8 = s.memRead (s.sp + 1).toNat := rfl

end

/-! ### The prefetch (30_encoding.md R80) -/

section
variable (s : State)

@[simp] theorem State.prefetch_regs : s.prefetch.regs = s.regs := rfl
@[simp] theorem State.prefetch_sr : s.prefetch.sr = s.sr := rfl
@[simp] theorem State.prefetch_pc : s.prefetch.pc = s.pc + 2 := rfl
@[simp] theorem State.prefetch_sp : s.prefetch.sp = s.sp := rfl
@[simp] theorem State.prefetch_ir : s.prefetch.ir = s.fetchWord s.pc.toNat := rfl
@[simp] theorem State.prefetch_mem : s.prefetch.mem = s.mem := rfl
@[simp] theorem State.prefetch_reg (r : Reg) : s.prefetch.reg r = s.reg r := rfl
@[simp] theorem State.prefetch_memRead (b : Nat) : s.prefetch.memRead b = s.memRead b := rfl

end

/-- A fetch depends on memory alone. -/
theorem State.fetchWord_congr {s t : State} (h : s.mem = t.mem) (a : Nat) :
    s.fetchWord a = t.fetchWord a := by
  simp only [State.fetchWord, State.memRead, h]

/-! ### Branch targets (44_branch.md R170-R172) -/

/-- The value a taken relative branch writes, as integer arithmetic modulo 65536. -/
theorem State.jumpRelative_toNat (s : State) (d : Int) :
    ((s.jumpRelative d).toNat : Int) = ((s.pc.toNat : Int) + d - 2) % 65536 := by
  have h := s.pc.isLt
  have h2 : (2 : Word).toNat = 2 := rfl
  simp only [State.jumpRelative, BitVec.toNat_sub, BitVec.toNat_add, BitVec.toNat_ofInt, h2]
  omega

/-- The value JMP writes, as integer arithmetic modulo 65536. -/
theorem jumpAbsolute_toNat (t : Byte) :
    ((jumpAbsolute t).toNat : Int) = ((t.toNat : Int) - 2) % 65536 := by
  have h := t.isLt
  have h2 : (2 : Word).toNat = 2 := rfl
  simp only [jumpAbsolute, BitVec.toNat_sub, BitVec.toNat_setWidth, h2]
  omega

end Sys2Proof.Machine
end

