-- ==== Sys2Proof/Laws/Flags.lean ====
section
/-! SUPPORT. What the flag operations do: each writes the bits it names, and touches nothing but sr. -/

namespace Sys2Proof.Machine

/-- One bit written, every other as before (R93). -/
theorem getLsbD_putBit (i j : Nat) (b : Bool) (v : Byte) (hi : i < 8) :
    (putBit i b v).getLsbD j = if j = i then b else v.getLsbD j := by
  by_cases hj : j < 8
  · by_cases h : j = i
    · subst h
      cases b <;> simp [putBit, hj]
    · have h2 : ¬(i ≤ j ∧ j - i = 0) := by omega
      cases b
      · simp only [putBit, BitVec.getLsbD_or, BitVec.getLsbD_and, BitVec.getLsbD_not,
          BitVec.getLsbD_shiftLeft, BitVec.getLsbD_one, hj, h]
        by_cases hlt : j < i
        · simp [hlt]
        · have : j - i ≠ 0 := by omega
          simp [this]
      · simp only [putBit, BitVec.getLsbD_or, BitVec.getLsbD_and, BitVec.getLsbD_not,
          BitVec.getLsbD_shiftLeft, BitVec.getLsbD_one, hj, h]
        by_cases hlt : j < i
        · simp [hlt]
        · have : j - i ≠ 0 := by omega
          simp [this]
  · have hji : j ≠ i := by omega
    rw [if_neg hji, BitVec.getLsbD_of_ge _ _ (by omega), BitVec.getLsbD_of_ge _ _ (by omega)]

/-- The same in the form simp keeps a bit in. -/
@[simp] theorem getElem_putBit (i j : Nat) (b : Bool) (v : Byte) (hi : i < 8) (hj : j < 8) :
    (putBit i b v)[j] = if j = i then b else v[j] := by
  have h := getLsbD_putBit i j b v hi
  rwa [BitVec.getLsbD_eq_getElem hj, BitVec.getLsbD_eq_getElem hj] at h

section
variable (s : State) (b : Bool)

@[simp] theorem State.setZ_sr : (s.setZ b).sr = putBit 0 b s.sr := rfl
@[simp] theorem State.setN_sr : (s.setN b).sr = putBit 1 b s.sr := rfl
@[simp] theorem State.setV_sr : (s.setV b).sr = putBit 2 b s.sr := rfl
@[simp] theorem State.setC_sr : (s.setC b).sr = putBit 3 b s.sr := rfl

end

/-- A flag operation is a write of sr and of nothing else. -/
theorem State.setZ_eq (s : State) (b : Bool) : s.setZ b = s.setSr (putBit 0 b s.sr) := rfl
theorem State.setN_eq (s : State) (b : Bool) : s.setN b = s.setSr (putBit 1 b s.sr) := rfl
theorem State.setV_eq (s : State) (b : Bool) : s.setV b = s.setSr (putBit 2 b s.sr) := rfl
theorem State.setC_eq (s : State) (b : Bool) : s.setC b = s.setSr (putBit 3 b s.sr) := rfl

theorem State.setZN_eq (s : State) (res : Byte) :
    s.setZN res = s.setSr (putBit 1 (bit7 res) (putBit 0 (decide (res = 0)) s.sr)) := rfl

theorem State.setZNVC_eq (s : State) (r : AluResult) :
    s.setZNVC r =
      s.setSr (putBit 3 r.c (putBit 2 r.v (putBit 1 r.n (putBit 0 r.z s.sr)))) := rfl

theorem State.setShiftFlags_eq (s : State) (res n : Byte) (c : Bool) :
    s.setShiftFlags res n c = s.setSr
      (if n = 0 then putBit 1 (bit7 res) (putBit 0 (decide (res = 0)) s.sr)
       else putBit 3 c (putBit 1 (bit7 res) (putBit 0 (decide (res = 0)) s.sr))) := by
  by_cases h : n = 0 <;> simp only [State.setShiftFlags, h, if_true, if_false] <;> rfl

theorem State.setMulFlags_eq (s : State) (p : Nat) :
    s.setMulFlags p = s.setSr
      (putBit 3 (decide (256 ≤ p)) (putBit 1 (p.testBit 15) (putBit 0 (decide (p = 0)) s.sr))) := rfl

theorem State.setDivFlags_eq (s : State) (q : Nat) :
    s.setDivFlags q = s.setSr (putBit 1 false (putBit 0 (decide (q = 0)) s.sr)) := rfl

/-! The bits after each group of writes. -/

theorem setZN_bits (z n : Bool) (v : Byte) :
    (putBit 1 n (putBit 0 z v)).getLsbD 0 = z ∧ (putBit 1 n (putBit 0 z v)).getLsbD 1 = n := by
  simp

theorem setZNVC_bits (z n o c : Bool) (v : Byte) :
    (putBit 3 c (putBit 2 o (putBit 1 n (putBit 0 z v)))).getLsbD 0 = z ∧
    (putBit 3 c (putBit 2 o (putBit 1 n (putBit 0 z v)))).getLsbD 1 = n ∧
    (putBit 3 c (putBit 2 o (putBit 1 n (putBit 0 z v)))).getLsbD 2 = o ∧
    (putBit 3 c (putBit 2 o (putBit 1 n (putBit 0 z v)))).getLsbD 3 = c := by
  simp

/-- The bits outside a mask, when the written bit lies in it. -/
theorem putBit_outside (i : Nat) (b : Bool) (v mask : Byte) (hi : i < 8)
    (hm : mask.getLsbD i = true) : putBit i b v &&& ~~~mask = v &&& ~~~mask := by
  apply BitVec.eq_of_getLsbD_eq
  intro j hj
  simp only [BitVec.getLsbD_and, getLsbD_putBit i j b v hi]
  by_cases h : j = i
  · subst h
    simp [hm]
  · rw [if_neg h]

end Sys2Proof.Machine
end

