-- ==== Sys2Proof/Laws/Handlers.lean ====
section
/-! SUPPORT. The two handler shapes that branch on data, each as one equation without the case split. -/

namespace Sys2Proof.Machine

/-- A conditional branch is always a write of pc: of the target, or of pc itself (R170). -/
theorem State.branchIf_eq (s : State) (taken : Bool) (d : Int) :
    s.branchIf taken d = s.setPc (if taken then s.jumpRelative d else s.pc) := by
  cases taken <;> rfl

/-- A taken branch. -/
theorem State.branchIf_true (s : State) (d : Int) :
    s.branchIf true d = s.setPc (s.jumpRelative d) := rfl

/-- A branch that is not taken changes nothing. -/
theorem State.branchIf_false (s : State) (d : Int) : s.branchIf false d = s := rfl

/-- DIV by zero has no effect (R106). -/
theorem execDiv_of_zero (s : State) (h : (s.reg .r0).toNat = 0) : execDiv s = .next s := by
  simp only [execDiv, h, if_true]

/-- DIV by a non-zero divisor (R106). -/
theorem execDiv_of_ne_zero (s : State) (h : (s.reg .r0).toNat ≠ 0) :
    execDiv s = .next
      (((s.setReg .r2 (BitVec.ofNat 8 ((s.reg .r1).toNat / (s.reg .r0).toNat))).setReg .r3
        (BitVec.ofNat 8 ((s.reg .r1).toNat / (s.reg .r0).toNat / 256))).setDivFlags
          ((s.reg .r1).toNat / (s.reg .r0).toNat)) := by
  simp only [execDiv, h, if_false]

/-- In every case DIV answers next. -/
theorem execDiv_next_iff (s t : State) :
    execDiv s = .next t ↔
      ((s.reg .r0).toNat = 0 ∧ t = s) ∨
      ((s.reg .r0).toNat ≠ 0 ∧
        t = ((s.setReg .r2 (BitVec.ofNat 8 ((s.reg .r1).toNat / (s.reg .r0).toNat))).setReg .r3
          (BitVec.ofNat 8 ((s.reg .r1).toNat / (s.reg .r0).toNat / 256))).setDivFlags
            ((s.reg .r1).toNat / (s.reg .r0).toNat)) := by
  by_cases h : (s.reg .r0).toNat = 0
  · rw [execDiv_of_zero s h]
    simp only [Host.Outcome.next.injEq, h, ne_eq, not_true, false_and, or_false, true_and, eq_comm]
  · rw [execDiv_of_ne_zero s h]
    simp only [Host.Outcome.next.injEq, h, ne_eq, not_false_iff, false_and, false_or, true_and,
      eq_comm]

end Sys2Proof.Machine
end

