-- ==== Sys2Proof/Laws/PerInstr.lean ====
section
/-! SUPPORT. The family EncodeInRow: the word of a well-formed instruction lies in the instruction's own
row of the opcode map (spec 30_encoding.md R71). One lemma per constructor. -/

namespace Sys2Proof.Laws

/-! ### The operand fields lie outside the opcode bits -/

theorem putRd_opcode (r : Reg) : putRd r &&& 0xF800 = 0 := by cases r <;> decide

theorem putRd_opcode_sel (r : Reg) : putRd r &&& 0xF803 = 0 := by cases r <;> decide

theorem putRs_opcode (r : Reg) : putRs r &&& 0xF800 = 0 := by cases r <;> decide

theorem putImm8_opcode (b : Byte) : putImm8 b &&& 0xF800 = 0 := by
  revert b; decide

theorem putD8_opcode (d : Int) : putD8 d &&& 0xF800 = 0 := putImm8_opcode (BitVec.ofInt 8 d)

theorem putD5_opcode (d : Int) : putD5 d &&& 0xF800 = 0 := by
  unfold putD5
  generalize BitVec.ofInt 5 d = b
  revert b; decide

/-- Putting a field outside a mask into a word leaves the word's bits under the mask. -/
theorem and_put (w f mask : Word) (h : f &&& mask = 0) : (w ||| f) &&& mask = w &&& mask := by
  apply BitVec.eq_of_getLsbD_eq
  intro j hj
  have hf : (f &&& mask).getLsbD j = (0#16).getLsbD j := congrArg (BitVec.getLsbD · j) h
  rw [BitVec.getLsbD_and, BitVec.getLsbD_zero] at hf
  rw [BitVec.getLsbD_and, BitVec.getLsbD_or, BitVec.getLsbD_and, Bool.and_or_distrib_right, hf,
    Bool.or_false]

/-! ### The family -/

/-- The word of a well-formed instruction matches the instruction's row. -/
def EncodeInRow.Statement (i : Instr) : Prop :=
  WellFormed i → encode i &&& i.row.mask = i.row.pattern

theorem EncodeInRow.addRR (rd rs : Reg) : EncodeInRow.Statement (.addRR rd rs) := by
  intro _
  simp only [encode, Instr.row]
  rw [and_put _ _ _ (putRs_opcode rs), and_put _ _ _ (putRd_opcode rd)]
  decide

theorem EncodeInRow.subRR (rd rs : Reg) : EncodeInRow.Statement (.subRR rd rs) := by
  intro _
  simp only [encode, Instr.row]
  rw [and_put _ _ _ (putRs_opcode rs), and_put _ _ _ (putRd_opcode rd)]
  decide

theorem EncodeInRow.xorRR (rd rs : Reg) : EncodeInRow.Statement (.xorRR rd rs) := by
  intro _
  simp only [encode, Instr.row]
  rw [and_put _ _ _ (putRs_opcode rs), and_put _ _ _ (putRd_opcode rd)]
  decide

theorem EncodeInRow.andRR (rd rs : Reg) : EncodeInRow.Statement (.andRR rd rs) := by
  intro _
  simp only [encode, Instr.row]
  rw [and_put _ _ _ (putRs_opcode rs), and_put _ _ _ (putRd_opcode rd)]
  decide

theorem EncodeInRow.orRR (rd rs : Reg) : EncodeInRow.Statement (.orRR rd rs) := by
  intro _
  simp only [encode, Instr.row]
  rw [and_put _ _ _ (putRs_opcode rs), and_put _ _ _ (putRd_opcode rd)]
  decide

theorem EncodeInRow.mul : EncodeInRow.Statement .mul := by
  intro _
  decide

theorem EncodeInRow.div : EncodeInRow.Statement .div := by
  intro _
  decide

theorem EncodeInRow.nopRR : EncodeInRow.Statement .nopRR := by
  intro _
  decide

theorem EncodeInRow.addRI (rd : Reg) (imm : Byte) : EncodeInRow.Statement (.addRI rd imm) := by
  intro _
  simp only [encode, Instr.row]
  rw [and_put _ _ _ (putImm8_opcode imm), and_put _ _ _ (putRd_opcode rd)]
  decide

theorem EncodeInRow.subRI (rd : Reg) (imm : Byte) : EncodeInRow.Statement (.subRI rd imm) := by
  intro _
  simp only [encode, Instr.row]
  rw [and_put _ _ _ (putImm8_opcode imm), and_put _ _ _ (putRd_opcode rd)]
  decide

theorem EncodeInRow.xorRI (rd : Reg) (imm : Byte) : EncodeInRow.Statement (.xorRI rd imm) := by
  intro _
  simp only [encode, Instr.row]
  rw [and_put _ _ _ (putImm8_opcode imm), and_put _ _ _ (putRd_opcode rd)]
  decide

theorem EncodeInRow.andRI (rd : Reg) (imm : Byte) : EncodeInRow.Statement (.andRI rd imm) := by
  intro _
  simp only [encode, Instr.row]
  rw [and_put _ _ _ (putImm8_opcode imm), and_put _ _ _ (putRd_opcode rd)]
  decide

theorem EncodeInRow.orRI (rd : Reg) (imm : Byte) : EncodeInRow.Statement (.orRI rd imm) := by
  intro _
  simp only [encode, Instr.row]
  rw [and_put _ _ _ (putImm8_opcode imm), and_put _ _ _ (putRd_opcode rd)]
  decide

theorem EncodeInRow.lsl (rd : Reg) (n : Byte) : EncodeInRow.Statement (.lsl rd n) := by
  intro _
  simp only [encode, Instr.row]
  rw [and_put _ _ _ (putImm8_opcode n), and_put _ _ _ (putRd_opcode rd)]
  decide

theorem EncodeInRow.lsr (rd : Reg) (n : Byte) : EncodeInRow.Statement (.lsr rd n) := by
  intro _
  simp only [encode, Instr.row]
  rw [and_put _ _ _ (putImm8_opcode n), and_put _ _ _ (putRd_opcode rd)]
  decide

theorem EncodeInRow.nopRI : EncodeInRow.Statement .nopRI := by
  intro _
  decide

theorem EncodeInRow.ldr (rd : Reg) (disp : Byte) : EncodeInRow.Statement (.ldr rd disp) := by
  intro _
  simp only [encode, Instr.row]
  rw [and_put _ _ _ (putImm8_opcode disp), and_put _ _ _ (putRd_opcode rd)]
  decide

theorem EncodeInRow.str (rd : Reg) (disp : Byte) : EncodeInRow.Statement (.str rd disp) := by
  intro _
  simp only [encode, Instr.row]
  rw [and_put _ _ _ (putImm8_opcode disp), and_put _ _ _ (putRd_opcode rd)]
  decide

theorem EncodeInRow.pushReg (rd : Reg) : EncodeInRow.Statement (.pushReg rd) := by
  intro _
  simp only [encode, Instr.row]
  rw [and_put _ _ _ (putRd_opcode_sel rd)]
  decide

theorem EncodeInRow.pushSR : EncodeInRow.Statement .pushSR := by
  intro _
  decide

theorem EncodeInRow.pushPC : EncodeInRow.Statement .pushPC := by
  intro _
  decide

theorem EncodeInRow.pushNop : EncodeInRow.Statement .pushNop := by
  intro _
  decide

theorem EncodeInRow.popReg (rd : Reg) : EncodeInRow.Statement (.popReg rd) := by
  intro _
  simp only [encode, Instr.row]
  rw [and_put _ _ _ (putRd_opcode_sel rd)]
  decide

theorem EncodeInRow.popSR : EncodeInRow.Statement .popSR := by
  intro _
  decide

theorem EncodeInRow.popPC : EncodeInRow.Statement .popPC := by
  intro _
  decide

theorem EncodeInRow.popNop : EncodeInRow.Statement .popNop := by
  intro _
  decide

theorem EncodeInRow.mov (rd rs : Reg) : EncodeInRow.Statement (.mov rd rs) := by
  intro _
  simp only [encode, Instr.row]
  rw [and_put _ _ _ (putRs_opcode rs), and_put _ _ _ (putRd_opcode rd)]
  decide

theorem EncodeInRow.mvsNop : EncodeInRow.Statement .mvsNop := by
  intro _
  decide

theorem EncodeInRow.mvsSR (rd : Reg) : EncodeInRow.Statement (.mvsSR rd) := by
  intro _
  simp only [encode, Instr.row]
  rw [and_put _ _ _ (putRd_opcode_sel rd)]
  decide

theorem EncodeInRow.mvsPCL (rd : Reg) : EncodeInRow.Statement (.mvsPCL rd) := by
  intro _
  simp only [encode, Instr.row]
  rw [and_put _ _ _ (putRd_opcode_sel rd)]
  decide

theorem EncodeInRow.mvsPCH (rd : Reg) : EncodeInRow.Statement (.mvsPCH rd) := by
  intro _
  simp only [encode, Instr.row]
  rw [and_put _ _ _ (putRd_opcode_sel rd)]
  decide

theorem EncodeInRow.nopMem6 : EncodeInRow.Statement .nopMem6 := by
  intro _
  decide

theorem EncodeInRow.nopMem7 : EncodeInRow.Statement .nopMem7 := by
  intro _
  decide

theorem EncodeInRow.jmp (t : Byte) : EncodeInRow.Statement (.jmp t) := by
  intro _
  simp only [encode, Instr.row]
  rw [and_put _ _ _ (putImm8_opcode t)]
  decide

theorem EncodeInRow.jle (rd rs : Reg) (d : Int) : EncodeInRow.Statement (.jle rd rs d) := by
  intro _
  simp only [encode, Instr.row]
  rw [and_put _ _ _ (putD5_opcode d), and_put _ _ _ (putRs_opcode rs), and_put _ _ _ (putRd_opcode rd)]
  decide

theorem EncodeInRow.jge (rd rs : Reg) (d : Int) : EncodeInRow.Statement (.jge rd rs d) := by
  intro _
  simp only [encode, Instr.row]
  rw [and_put _ _ _ (putD5_opcode d), and_put _ _ _ (putRs_opcode rs), and_put _ _ _ (putRd_opcode rd)]
  decide

theorem EncodeInRow.jeq (rd rs : Reg) (d : Int) : EncodeInRow.Statement (.jeq rd rs d) := by
  intro _
  simp only [encode, Instr.row]
  rw [and_put _ _ _ (putD5_opcode d), and_put _ _ _ (putRs_opcode rs), and_put _ _ _ (putRd_opcode rd)]
  decide

theorem EncodeInRow.jlz (d : Int) : EncodeInRow.Statement (.jlz d) := by
  intro _
  simp only [encode, Instr.row]
  rw [and_put _ _ _ (putD8_opcode d)]
  decide

theorem EncodeInRow.jgz (d : Int) : EncodeInRow.Statement (.jgz d) := by
  intro _
  simp only [encode, Instr.row]
  rw [and_put _ _ _ (putD8_opcode d)]
  decide

theorem EncodeInRow.jrl (d : Int) : EncodeInRow.Statement (.jrl d) := by
  intro _
  simp only [encode, Instr.row]
  rw [and_put _ _ _ (putD8_opcode d)]
  decide

theorem EncodeInRow.nopBranch : EncodeInRow.Statement .nopBranch := by
  intro _
  decide

end Sys2Proof.Laws
end

