-- ==== Sys2Proof/Laws/Step.lean ====
section
/-! SUPPORT. What a step can do, once: it is the handler's outcome with the prefetch behind it (R80). -/

namespace Sys2Proof.Machine

/-- A step that answers next answers the prefetch of what its handler answered. -/
theorem step_next_iff (s u : State) :
    step s = .next u ↔ ∃ t, exec (decodeWord s.ir) s = .next t ∧ u = t.prefetch := by
  unfold step
  cases exec (decodeWord s.ir) s with
  | next t =>
    constructor
    · intro h; exact ⟨t, rfl, (Host.Outcome.next.inj h).symm⟩
    · rintro ⟨t', ht, rfl⟩; rw [Host.Outcome.next.inj ht]
  | fault r => cases r
  | refused r =>
    constructor
    · intro h; cases h
    · rintro ⟨t, ht, _⟩; cases ht

/-- The step of a handler that answers next. -/
theorem step_of_exec {s t : State} (h : exec (decodeWord s.ir) s = .next t) :
    step s = .next t.prefetch :=
  (step_next_iff s _).2 ⟨t, h, rfl⟩

end Sys2Proof.Machine
end

