-- ==== Sys2Proof/Tests/Slice0.lean ====
section
/-! SUPPORT. Tests on fixed values and the witnesses of the statements' hypotheses. Expected results
come from the vectors of spec/95_test_vectors.md and from the rules named; V<n> is a vector. -/

namespace Sys2Proof.Tests

open Sys2Proof Sys2Proof.Machine

/-! ### Helpers -/

/-- A state with some registers, memory bytes, sr and sp set, all else as after reset. -/
def machine (regs : List (Reg × Byte)) (bytes : List (Nat × Byte)) (sr : Byte) (sp : Word) : State :=
  let s := regs.foldl (fun s c => s.setReg c.1 c.2) State.reset
  (((bytes.foldl (fun s c => s.memWrite c.1 c.2) s).setSr sr).setSp sp)

/-- The state before a vector: the word w stored at a and latched, pc = a + 2 (95 section 1). -/
def vector (a : Nat) (w : Word) (regs : List (Reg × Byte)) (bytes : List (Nat × Byte)) (sr : Byte)
    (sp : Word) : State :=
  let s := machine regs bytes sr sp
  let s := (s.memWrite a (w.extractLsb' 0 8)).memWrite (a + 1) (w.extractLsb' 8 8)
  (s.setIr w).setPc (BitVec.ofNat 16 (a + 2))

/-- The state a word runs in, at address 0x0100 with sp = 0x2000 and everything else as after
reset. -/
def running (w : Word) : State := vector 0x0100 w [] [] 0x00 0x2000

/-- Whether a step answers next, with a state that has a property. -/
def stepGives (s : State) (p : State → Bool) : Bool :=
  match step s with
  | .next t => p t
  | .fault _ => false
  | .refused _ => false

/-- The state of an outcome that is a next state. -/
def nextOf (o : Host.Outcome State Fault Refusal) : State :=
  match o with
  | .next t => t
  | .fault _ => State.reset
  | .refused _ => State.reset

/-! ### WellFormed refuses what no field holds (R64) -/

theorem test_wf_jle : (Instr.jle .r0 .r1 16).wf = false ∧ (Instr.jle .r0 .r1 (-17)).wf = false ∧
    (Instr.jle .r0 .r1 15).wf = true ∧ (Instr.jle .r0 .r1 (-16)).wf = true := by decide
theorem test_wf_jge : (Instr.jge .r0 .r1 16).wf = false ∧ (Instr.jge .r0 .r1 (-17)).wf = false ∧
    (Instr.jge .r0 .r1 15).wf = true ∧ (Instr.jge .r0 .r1 (-16)).wf = true := by decide
theorem test_wf_jeq : (Instr.jeq .r0 .r1 16).wf = false ∧ (Instr.jeq .r0 .r1 (-17)).wf = false ∧
    (Instr.jeq .r0 .r1 15).wf = true ∧ (Instr.jeq .r0 .r1 (-16)).wf = true := by decide
theorem test_wf_jlz : (Instr.jlz 128).wf = false ∧ (Instr.jlz (-129)).wf = false ∧
    (Instr.jlz 127).wf = true ∧ (Instr.jlz (-128)).wf = true := by decide
theorem test_wf_jgz : (Instr.jgz 128).wf = false ∧ (Instr.jgz (-129)).wf = false ∧
    (Instr.jgz 127).wf = true ∧ (Instr.jgz (-128)).wf = true := by decide
theorem test_wf_jrl : (Instr.jrl 128).wf = false ∧ (Instr.jrl (-129)).wf = false ∧
    (Instr.jrl 127).wf = true ∧ (Instr.jrl (-128)).wf = true := by decide

/-! ### Decoding: a word written from the spec for every row (R71). These also meet the hypothesis
of every row of the statements. -/

/-- A list of fewer than 2 bytes holds no instruction (R60). -/
theorem test_decode_short : decode [] = .error .truncated ∧ decode [0x40] = .error .truncated :=
  ⟨rfl, rfl⟩

/-- What follows the instruction is left (R60). -/
theorem test_decode_rest : decode [0x05, 0x40, 0x38] = .ok (.addRI .r0 5, [0x38]) := rfl

/-- The host's numbering of a row's bits: POP PC is 0x9802. -/
theorem test_decodeTableWord : decodeTableWord 16 0x9802 = some .popPC := rfl

/-- The ignored bits 10-8 of JRL and 4-0 of ADD change nothing (R63; V5). -/
theorem test_decode_ignored : decodeWord 0xF704 = decodeWord 0xF004 ∧
    decodeWord 0x003F = decodeWord 0x0020 := by decide

/-- 0x0140 is in the row 0x0000 / 0xF800 and decodes as V1 and R100 say. -/
theorem test_decode_addRR : (0x0140 : Word) &&& 0xF800 = 0x0000 ∧
    decode [0x40, 0x01] = .ok (.addRR .r1 .r2, []) := ⟨by decide, rfl⟩

/-- 0x0A40 is in the row 0x0800 / 0xF800 and decodes as V7 and R101 say. -/
theorem test_decode_subRR : (0x0A40 : Word) &&& 0xF800 = 0x0800 ∧
    decode [0x40, 0x0A] = .ok (.subRR .r2 .r2, []) := ⟨by decide, rfl⟩

/-- 0x1260 is in the row 0x1000 / 0xF800 and decodes as V10 and R102 say. -/
theorem test_decode_xorRR : (0x1260 : Word) &&& 0xF800 = 0x1000 ∧
    decode [0x60, 0x12] = .ok (.xorRR .r2 .r3, []) := ⟨by decide, rfl⟩

/-- 0x1820 is in the row 0x1800 / 0xF800 and decodes as V12 and R103 say. -/
theorem test_decode_andRR : (0x1820 : Word) &&& 0xF800 = 0x1800 ∧
    decode [0x20, 0x18] = .ok (.andRR .r0 .r1, []) := ⟨by decide, rfl⟩

/-- 0x25C0 is in the row 0x2000 / 0xF800 and decodes as V15 and R104 say. -/
theorem test_decode_orRR : (0x25C0 : Word) &&& 0xF800 = 0x2000 ∧
    decode [0xC0, 0x25] = .ok (.orRR .r5 .r6, []) := ⟨by decide, rfl⟩

/-- 0x2FFF is in the row 0x2800 / 0xF800 and decodes as V20 and R105 say. -/
theorem test_decode_mul : (0x2FFF : Word) &&& 0xF800 = 0x2800 ∧
    decode [0xFF, 0x2F] = .ok (.mul, []) := ⟨by decide, rfl⟩

/-- 0x3000 is in the row 0x3000 / 0xF800 and decodes as V21 and R106 say. -/
theorem test_decode_div : (0x3000 : Word) &&& 0xF800 = 0x3000 ∧
    decode [0x00, 0x30] = .ok (.div, []) := ⟨by decide, rfl⟩

/-- 0x3FFF is in the row 0x3800 / 0xF800 and decodes as V26 and R107 say. -/
theorem test_decode_nopRR : (0x3FFF : Word) &&& 0xF800 = 0x3800 ∧
    decode [0xFF, 0x3F] = .ok (.nopRR, []) := ⟨by decide, rfl⟩

/-- 0x42FF is in the row 0x4000 / 0xF800 and decodes as V29 and R120 say. -/
theorem test_decode_addRI : (0x42FF : Word) &&& 0xF800 = 0x4000 ∧
    decode [0xFF, 0x42] = .ok (.addRI .r2 0xFF, []) := ⟨by decide, rfl⟩

/-- 0x4801 is in the row 0x4800 / 0xF800 and decodes as V31 and R121 say. -/
theorem test_decode_subRI : (0x4801 : Word) &&& 0xF800 = 0x4800 ∧
    decode [0x01, 0x48] = .ok (.subRI .r0 1, []) := ⟨by decide, rfl⟩

/-- 0x53FF is in the row 0x5000 / 0xF800 and decodes as V34 and R122 say. -/
theorem test_decode_xorRI : (0x53FF : Word) &&& 0xF800 = 0x5000 ∧
    decode [0xFF, 0x53] = .ok (.xorRI .r3 0xFF, []) := ⟨by decide, rfl⟩

/-- 0x590F is in the row 0x5800 / 0xF800 and decodes as V35 and R123 say. -/
theorem test_decode_andRI : (0x590F : Word) &&& 0xF800 = 0x5800 ∧
    decode [0x0F, 0x59] = .ok (.andRI .r1 0x0F, []) := ⟨by decide, rfl⟩

/-- 0x6501 is in the row 0x6000 / 0xF800 and decodes as V37 and R124 say. -/
theorem test_decode_orRI : (0x6501 : Word) &&& 0xF800 = 0x6000 ∧
    decode [0x01, 0x65] = .ok (.orRI .sah 1, []) := ⟨by decide, rfl⟩

/-- 0x68FF is in the row 0x6800 / 0xF800 and decodes as V43 and R126 say. -/
theorem test_decode_lsl : (0x68FF : Word) &&& 0xF800 = 0x6800 ∧
    decode [0xFF, 0x68] = .ok (.lsl .r0 255, []) := ⟨by decide, rfl⟩

/-- 0x7002 is in the row 0x7000 / 0xF800 and decodes as V44 and R127 say. -/
theorem test_decode_lsr : (0x7002 : Word) &&& 0xF800 = 0x7000 ∧
    decode [0x02, 0x70] = .ok (.lsr .r0 2, []) := ⟨by decide, rfl⟩

/-- 0x7855 is in the row 0x7800 / 0xF800 and decodes as V49 and R128 say. -/
theorem test_decode_nopRI : (0x7855 : Word) &&& 0xF800 = 0x7800 ∧
    decode [0x55, 0x78] = .ok (.nopRI, []) := ⟨by decide, rfl⟩

/-- 0x8400 is in the row 0x8000 / 0xF800 and decodes as V53 and R141 say. -/
theorem test_decode_ldr : (0x8400 : Word) &&& 0xF800 = 0x8000 ∧
    decode [0x00, 0x84] = .ok (.ldr .sal 0, []) := ⟨by decide, rfl⟩

/-- 0x8903 is in the row 0x8800 / 0xF800 and decodes as V58 and R142 say. -/
theorem test_decode_str : (0x8903 : Word) &&& 0xF800 = 0x8800 ∧
    decode [0x03, 0x89] = .ok (.str .r1 3, []) := ⟨by decide, rfl⟩

/-- 0x9200 is in the row 0x9000 / 0xF803 and decodes as V62 and R144 say. -/
theorem test_decode_pushReg : (0x9200 : Word) &&& 0xF803 = 0x9000 ∧
    decode [0x00, 0x92] = .ok (.pushReg .r2, []) := ⟨by decide, rfl⟩

/-- 0x9001 is in the row 0x9001 / 0xF803 and decodes as V63 and R145 say. -/
theorem test_decode_pushSR : (0x9001 : Word) &&& 0xF803 = 0x9001 ∧
    decode [0x01, 0x90] = .ok (.pushSR, []) := ⟨by decide, rfl⟩

/-- 0x9002 is in the row 0x9002 / 0xF803 and decodes as V64 and R146 say. -/
theorem test_decode_pushPC : (0x9002 : Word) &&& 0xF803 = 0x9002 ∧
    decode [0x02, 0x90] = .ok (.pushPC, []) := ⟨by decide, rfl⟩

/-- 0x9003 is in the row 0x9003 / 0xF803 and decodes as V66 and R147 say. -/
theorem test_decode_pushNop : (0x9003 : Word) &&& 0xF803 = 0x9003 ∧
    decode [0x03, 0x90] = .ok (.pushNop, []) := ⟨by decide, rfl⟩

/-- 0x9B00 is in the row 0x9800 / 0xF803 and decodes as V67 and R148 say. -/
theorem test_decode_popReg : (0x9B00 : Word) &&& 0xF803 = 0x9800 ∧
    decode [0x00, 0x9B] = .ok (.popReg .r3, []) := ⟨by decide, rfl⟩

/-- 0x9801 is in the row 0x9801 / 0xF803 and decodes as V69 and R149 say. -/
theorem test_decode_popSR : (0x9801 : Word) &&& 0xF803 = 0x9801 ∧
    decode [0x01, 0x98] = .ok (.popSR, []) := ⟨by decide, rfl⟩

/-- 0x9802 is in the row 0x9802 / 0xF803 and decodes as V71 and R150 say. -/
theorem test_decode_popPC : (0x9802 : Word) &&& 0xF803 = 0x9802 ∧
    decode [0x02, 0x98] = .ok (.popPC, []) := ⟨by decide, rfl⟩

/-- 0x9803 is in the row 0x9803 / 0xF803 and decodes as V73 and R151 say. -/
theorem test_decode_popNop : (0x9803 : Word) &&& 0xF803 = 0x9803 ∧
    decode [0x03, 0x98] = .ok (.popNop, []) := ⟨by decide, rfl⟩

/-- 0xA700 is in the row 0xA000 / 0xF800 and decodes as V75 and R152 say. -/
theorem test_decode_mov : (0xA700 : Word) &&& 0xF800 = 0xA000 ∧
    decode [0x00, 0xA7] = .ok (.mov .dah .r0, []) := ⟨by decide, rfl⟩

/-- 0xA800 is in the row 0xA800 / 0xF803 and decodes as V76 and R153 say. -/
theorem test_decode_mvsNop : (0xA800 : Word) &&& 0xF803 = 0xA800 ∧
    decode [0x00, 0xA8] = .ok (.mvsNop, []) := ⟨by decide, rfl⟩

/-- 0xA801 is in the row 0xA801 / 0xF803 and decodes as V77 and R154 say. -/
theorem test_decode_mvsSR : (0xA801 : Word) &&& 0xF803 = 0xA801 ∧
    decode [0x01, 0xA8] = .ok (.mvsSR .r0, []) := ⟨by decide, rfl⟩

/-- 0xA902 is in the row 0xA802 / 0xF803 and decodes as V78 and R155 say. -/
theorem test_decode_mvsPCL : (0xA902 : Word) &&& 0xF803 = 0xA802 ∧
    decode [0x02, 0xA9] = .ok (.mvsPCL .r1, []) := ⟨by decide, rfl⟩

/-- 0xAA03 is in the row 0xA803 / 0xF803 and decodes as V80 and R156 say. -/
theorem test_decode_mvsPCH : (0xAA03 : Word) &&& 0xF803 = 0xA803 ∧
    decode [0x03, 0xAA] = .ok (.mvsPCH .r2, []) := ⟨by decide, rfl⟩

/-- 0xB123 is in the row 0xB000 / 0xF800 and decodes as V81 and R157 say. -/
theorem test_decode_nopMem6 : (0xB123 : Word) &&& 0xF800 = 0xB000 ∧
    decode [0x23, 0xB1] = .ok (.nopMem6, []) := ⟨by decide, rfl⟩

/-- 0xB800 is in the row 0xB800 / 0xF800 and decodes as V82 and R158 say. -/
theorem test_decode_nopMem7 : (0xB800 : Word) &&& 0xF800 = 0xB800 ∧
    decode [0x00, 0xB8] = .ok (.nopMem7, []) := ⟨by decide, rfl⟩

/-- 0xC012 is in the row 0xC000 / 0xF800 and decodes as V83 and R171 say. -/
theorem test_decode_jmp : (0xC012 : Word) &&& 0xF800 = 0xC000 ∧
    decode [0x12, 0xC0] = .ok (.jmp 0x12, []) := ⟨by decide, rfl⟩

/-- 0xC830 is in the row 0xC800 / 0xF800 and decodes as V96 and R173 say. -/
theorem test_decode_jle : (0xC830 : Word) &&& 0xF800 = 0xC800 ∧
    decode [0x30, 0xC8] = .ok (.jle .r0 .r1 (-16), []) := ⟨by decide, rfl⟩

/-- 0xD266 is in the row 0xD000 / 0xF800 and decodes as V97 and R174 say. -/
theorem test_decode_jge : (0xD266 : Word) &&& 0xF800 = 0xD000 ∧
    decode [0x66, 0xD2] = .ok (.jge .r2 .r3 6, []) := ⟨by decide, rfl⟩

/-- 0xD864 is in the row 0xD800 / 0xF800 and decodes as V99 and R175 say. -/
theorem test_decode_jeq : (0xD864 : Word) &&& 0xF800 = 0xD800 ∧
    decode [0x64, 0xD8] = .ok (.jeq .r0 .r3 4, []) := ⟨by decide, rfl⟩

/-- 0xE004 is in the row 0xE000 / 0xF800 and decodes as V101 and R176 say. -/
theorem test_decode_jlz : (0xE004 : Word) &&& 0xF800 = 0xE000 ∧
    decode [0x04, 0xE0] = .ok (.jlz 4, []) := ⟨by decide, rfl⟩

/-- 0xE8FC is in the row 0xE800 / 0xF800 and decodes as V103 and R177 say. -/
theorem test_decode_jgz : (0xE8FC : Word) &&& 0xF800 = 0xE800 ∧
    decode [0xFC, 0xE8] = .ok (.jgz (-4), []) := ⟨by decide, rfl⟩

/-- 0xF080 is in the row 0xF000 / 0xF800 and decodes as V90 and R172 say. -/
theorem test_decode_jrl : (0xF080 : Word) &&& 0xF800 = 0xF000 ∧
    decode [0x80, 0xF0] = .ok (.jrl (-128), []) := ⟨by decide, rfl⟩

/-- 0xFFFF is in the row 0xF800 / 0xF800 and decodes as V106 and R178 say. -/
theorem test_decode_nopBranch : (0xFFFF : Word) &&& 0xF800 = 0xF800 ∧
    decode [0xFF, 0xFF] = .ok (.nopBranch, []) := ⟨by decide, rfl⟩

/-! ### Steps: the vectors of 95 section 4, at most two for each instruction -/

/-- ADD r0, r1: vector V2, R100. -/
theorem test_addRR_V2 :
    stepGives (vector 0x0100 0x0020 [(.r0, 0x80), (.r1, 0x80)] [] 0x00 0xFFFF)
      (fun t => t.reg .r0 = 0x00 ∧ t.sr = 0x0D) := by decide

/-- ADD r1, r1: vector V4, R100. -/
theorem test_addRR_V4 :
    stepGives (vector 0x0100 0x0120 [(.r1, 0x40)] [] 0x00 0xFFFF)
      (fun t => t.reg .r1 = 0x80 ∧ t.sr = 0x06) := by decide

/-- SUB r0, r1: vector V6, R101. -/
theorem test_subRR_V6 :
    stepGives (vector 0x0100 0x0820 [(.r0, 0x05), (.r1, 0x07)] [] 0x00 0xFFFF)
      (fun t => t.reg .r0 = 0xFE ∧ t.sr = 0x0A) := by decide

/-- SUB r0, r1: vector V8, R101. -/
theorem test_subRR_V8 :
    stepGives (vector 0x0100 0x0820 [(.r0, 0x80), (.r1, 0x01)] [] 0x00 0xFFFF)
      (fun t => t.reg .r0 = 0x7F ∧ t.sr = 0x04) := by decide

/-- XOR r2, r3: vector V10, R102. -/
theorem test_xorRR_V10 :
    stepGives (vector 0x0100 0x1260 [(.r2, 0xF0), (.r3, 0xFF)] [] 0x0C 0xFFFF)
      (fun t => t.reg .r2 = 0x0F ∧ t.sr = 0x0C) := by decide

/-- XOR r3, r3: vector V11, R102. -/
theorem test_xorRR_V11 :
    stepGives (vector 0x0100 0x1360 [(.r3, 0xA5)] [] 0x02 0xFFFF)
      (fun t => t.reg .r3 = 0x00 ∧ t.sr = 0x01) := by decide

/-- AND r0, r1: vector V12, R103. -/
theorem test_andRR_V12 :
    stepGives (vector 0x0100 0x1820 [(.r0, 0xAA), (.r1, 0x55)] [] 0x00 0xFFFF)
      (fun t => t.reg .r0 = 0x00 ∧ t.sr = 0x01) := by decide

/-- AND r1, r1: vector V13, R103. -/
theorem test_andRR_V13 :
    stepGives (vector 0x0100 0x1920 [(.r1, 0x80)] [] 0x0D 0xFFFF)
      (fun t => t.sr = 0x0E) := by decide

/-- OR r0, r1: vector V14, R104. -/
theorem test_orRR_V14 :
    stepGives (vector 0x0100 0x2020 [(.r0, 0x80), (.r1, 0x01)] [] 0x00 0xFFFF)
      (fun t => t.reg .r0 = 0x81 ∧ t.sr = 0x02) := by decide

/-- OR r5, r6: vector V15, R104. -/
theorem test_orRR_V15 :
    stepGives (vector 0x0100 0x25C0 [(.r6, 0x12)] [] 0x00 0xFFFF)
      (fun t => t.reg .r5 = 0x12) := by decide

/-- MUL: vector V17, R105. -/
theorem test_mul_V17 :
    stepGives (vector 0x0100 0x2800 [(.r0, 0xFF), (.r1, 0xFF)] [] 0x00 0xFFFF)
      (fun t => t.reg .r2 = 0x01 ∧ t.reg .r3 = 0xFE ∧ t.sr = 0x0A) := by decide

/-- MUL: vector V19, R105. -/
theorem test_mul_V19 :
    stepGives (vector 0x0100 0x2800 [(.r0, 0x00), (.r1, 0xC8), (.r2, 0x55), (.r3, 0x66)] []
        0x00 0xFFFF)
      (fun t => t.reg .r2 = 0x00 ∧ t.reg .r3 = 0x00 ∧ t.sr = 0x01) := by decide

/-- DIV: vector V23, R106. -/
theorem test_div_V23 :
    stepGives (vector 0x0100 0x3000 [(.r0, 0x01), (.r1, 0xFF)] [] 0x0E 0xFFFF)
      (fun t => t.reg .r2 = 0xFF ∧ t.sr = 0x0C) := by decide

/-- DIV: vector V24, R106. -/
theorem test_div_V24 :
    stepGives (vector 0x0100 0x3000 [(.r0, 0x00), (.r1, 0x2A), (.r2, 0x11), (.r3, 0x22)] []
        0x0F 0xFFFF)
      (fun t => t.reg .r3 = 0x22 ∧ t.sr = 0x0F) := by decide

/-- NOP: vector V26, R107. -/
theorem test_nopRR_V26 :
    stepGives (vector 0x0100 0x3FFF [(.r0, 0x01)] [] 0x00 0xFFFF)
      (fun t => t.pc = 0x0104 ∧ t.ir = 0x0000) := by decide

/-- ADD r2, #0xFF: vector V29, R120. -/
theorem test_addRI_V29 :
    stepGives (vector 0x0100 0x42FF [(.r2, 0x05)] [] 0x00 0xFFFF)
      (fun t => t.reg .r2 = 0x04 ∧ t.sr = 0x08) := by decide

/-- ADD r3, #0: vector V30, R120. -/
theorem test_addRI_V30 :
    stepGives (vector 0x0100 0x4300 [(.r3, 0x00)] [] 0x0C 0xFFFF)
      (fun t => t.sr = 0x01) := by decide

/-- SUB r0, #1: vector V32, R121. -/
theorem test_subRI_V32 :
    stepGives (vector 0x0100 0x4801 [(.r0, 0x00)] [] 0x00 0xFFFF)
      (fun t => t.reg .r0 = 0xFF ∧ t.sr = 0x0A) := by decide

/-- SUB r0, #1: vector V33, R121. -/
theorem test_subRI_V33 :
    stepGives (vector 0x0100 0x4801 [(.r0, 0x80)] [] 0x00 0xFFFF)
      (fun t => t.reg .r0 = 0x7F ∧ t.sr = 0x04) := by decide

/-- XOR r3, #0xFF: vector V34, R122. -/
theorem test_xorRI_V34 :
    stepGives (vector 0x0100 0x53FF [(.r3, 0x0F)] [] 0x00 0xFFFF)
      (fun t => t.reg .r3 = 0xF0 ∧ t.sr = 0x02) := by decide

/-- AND r1, #0: vector V36, R123. -/
theorem test_andRI_V36 :
    stepGives (vector 0x0100 0x5900 [(.r1, 0x3C)] [] 0x0C 0xFFFF)
      (fun t => t.reg .r1 = 0x00 ∧ t.sr = 0x0D) := by decide

/-- OR r5, #0x01: vector V37, R124. -/
theorem test_orRI_V37 :
    stepGives (vector 0x0100 0x6501 [] [] 0x00 0xFFFF)
      (fun t => t.reg .r5 = 0x01) := by decide

/-- LSL r0, #8: vector V41, R126. -/
theorem test_lsl_V41 :
    stepGives (vector 0x0100 0x6808 [(.r0, 0x81)] [] 0x00 0xFFFF)
      (fun t => t.reg .r0 = 0x00 ∧ t.sr = 0x09) := by decide

/-- LSL r0, #9: vector V42, R126. -/
theorem test_lsl_V42 :
    stepGives (vector 0x0100 0x6809 [(.r0, 0xFF)] [] 0x08 0xFFFF)
      (fun t => t.reg .r0 = 0x00 ∧ t.sr = 0x01) := by decide

/-- LSR r0, #1: vector V45, R127. -/
theorem test_lsr_V45 :
    stepGives (vector 0x0100 0x7001 [(.r0, 0x80)] [] 0x00 0xFFFF)
      (fun t => t.reg .r0 = 0x40) := by decide

/-- LSR r0, #8: vector V46, R127. -/
theorem test_lsr_V46 :
    stepGives (vector 0x0100 0x7008 [(.r0, 0x80)] [] 0x00 0xFFFF)
      (fun t => t.reg .r0 = 0x00 ∧ t.sr = 0x09) := by decide

/-- NOP: vector V49, R128. -/
theorem test_nopRI_V49 :
    stepGives (vector 0x0100 0x7855 [(.r0, 0x01)] [] 0x0F 0xFFFF)
      (fun t => t.sr = 0x0F) := by decide

/-- LDR r2, [#0xFF]: vector V52, R141. -/
theorem test_ldr_V52 :
    stepGives (vector 0x0100 0x82FF [(.r4, 0xFF), (.r5, 0xFF)] [(0x00FF, 0x77)] 0x00 0xFFFF)
      (fun t => t.reg .r2 = 0x77) := by decide

/-- LDR r4, [#0x00]: vector V53, R141. -/
theorem test_ldr_V53 :
    stepGives (vector 0x0100 0x8400 [(.r4, 0x10), (.r5, 0x02)] [(0x0210, 0x99)] 0x00 0xFFFF)
      (fun t => t.reg .r4 = 0x99) := by decide

/-- STR r0, [#0x10]: vector V56, R142. -/
theorem test_str_V56 :
    stepGives (vector 0x0100 0x8810 [(.r0, 0x42), (.r4, 0x00), (.r5, 0x03), (.r6, 0x00), (.r7,
        0x01)] [] 0x10 0xFFFF)
      (fun t => t.memRead 0x0310 = 0x42 ∧ t.sr = 0x10 ∧ t.pc = 0x0104 ∧ t.ir = 0x0000) := by decide

/-- STR r1, [#0x03]: vector V58, R142. -/
theorem test_str_V58 :
    stepGives (vector 0x0100 0x8903 [(.r1, 0x38), (.r6, 0x00), (.r7, 0x01)] [] 0x00 0xFFFF)
      (fun t => t.memRead 0x0103 = 0x38 ∧ t.pc = 0x0104 ∧ t.ir = 0x3800) := by decide

/-- PUSH r1: vector V61, R144. -/
theorem test_pushReg_V61 :
    stepGives (vector 0x0100 0x9100 [(.r1, 0x42)] [] 0x00 0x0000)
      (fun t => t.memRead 0x0000 = 0x42 ∧ t.sp = 0xFFFF) := by decide

/-- PUSH SR: vector V63, R145. -/
theorem test_pushSR_V63 :
    stepGives (vector 0x0100 0x9001 [] [] 0x09 0xFFFE)
      (fun t => t.memRead 0xFFFE = 0x09 ∧ t.sp = 0xFFFD ∧ t.sr = 0x09) := by decide

/-- PUSH PC: vector V64, R146. -/
theorem test_pushPC_V64 :
    stepGives (vector 0x0004 0x9002 [] [] 0x00 0xFFFF)
      (fun t => t.memRead 0xFFFE = 0x06 ∧ t.sp = 0xFFFD) := by decide

/-- PUSH PC: vector V65, R146. -/
theorem test_pushPC_V65 :
    stepGives (vector 0x1234 0x9002 [] [] 0x00 0x2000)
      (fun t => t.memRead 0x1FFF = 0x36 ∧ t.memRead 0x2000 = 0x12 ∧ t.sp = 0x1FFE) := by decide

/-- PUSH (sel 3): vector V66, R147. -/
theorem test_pushNop_V66 :
    stepGives (vector 0x0100 0x9003 [(.r0, 0x01)] [] 0x00 0x2000)
      (fun t => t.pc = 0x0104 ∧ t.ir = 0x0000) := by decide

/-- POP r3: vector V67, R148. -/
theorem test_popReg_V67 :
    stepGives (vector 0x0100 0x9B00 [] [(0x0000, 0x42)] 0x00 0xFFFE)
      (fun t => t.reg .r3 = 0x42 ∧ t.sp = 0xFFFF) := by decide

/-- POP r0: vector V68, R148. -/
theorem test_popReg_V68 :
    stepGives (vector 0x0100 0x9800 [] [(0x0000, 0x66)] 0x00 0xFFFF)
      (fun t => t.reg .r0 = 0x66 ∧ t.sp = 0x0000) := by decide

/-- POP SR: vector V70, R149. -/
theorem test_popSR_V70 :
    stepGives (vector 0x0100 0x9801 [] [(0x2000, 0xFF)] 0x00 0x1FFF)
      (fun t => t.sp = 0x2000 ∧ t.sr = 0xFF) := by decide

/-- POP PC: vector V71, R150. -/
theorem test_popPC_V71 :
    stepGives (vector 0x0100 0x9802 [] [(0xFFFE, 0x08), (0x0000, 0x00)] 0x00 0xFFFD)
      (fun t => t.sp = 0xFFFF ∧ t.pc = 0x000A ∧ t.ir = 0x0000) := by decide

/-- POP PC: vector V72, R150. -/
theorem test_popPC_V72 :
    stepGives (vector 0x0100 0x9802 [] [(0x1FFF, 0x35), (0x2000, 0x12)] 0x00 0x1FFE)
      (fun t => t.sp = 0x2000 ∧ t.pc = 0x1237 ∧ t.ir = 0x0000) := by decide

/-- POP (sel 3): vector V73, R151. -/
theorem test_popNop_V73 :
    stepGives (vector 0x0100 0x9803 [] [] 0x00 0x1FFE)
      (fun t => t.pc = 0x0104 ∧ t.ir = 0x0000) := by decide

/-- MOV r7, r0: vector V75, R152. -/
theorem test_mov_V75 :
    stepGives (vector 0x0100 0xA700 [(.r0, 0x3C)] [] 0x00 0xFFFF)
      (fun t => t.reg .r7 = 0x3C) := by decide

/-- MVS (sel 0): vector V76, R153. -/
theorem test_mvsNop_V76 :
    stepGives (vector 0x0100 0xA800 [(.r0, 0x05)] [] 0x0F 0xFFFF)
      (fun t => t.sr = 0x0F) := by decide

/-- MVS r0, SR: vector V77, R154. -/
theorem test_mvsSR_V77 :
    stepGives (vector 0x0100 0xA801 [] [] 0xE1 0xFFFF)
      (fun t => t.reg .r0 = 0xE1 ∧ t.sr = 0xE1) := by decide

/-- MVS r1, PCL: vector V78, R155. -/
theorem test_mvsPCL_V78 :
    stepGives (vector 0x0120 0xA902 [] [] 0x00 0xFFFF)
      (fun t => t.reg .r1 = 0x22) := by decide

/-- MVS r1, PCH: vector V79, R156. -/
theorem test_mvsPCH_V79 :
    stepGives (vector 0x0120 0xA903 [] [] 0x00 0xFFFF)
      (fun t => t.reg .r1 = 0x01 ∧ t.pc = 0x0124 ∧ t.ir = 0x0000) := by decide

/-- MVS r2, PCH: vector V80, R156. -/
theorem test_mvsPCH_V80 :
    stepGives (vector 0xFFFE 0xAA03 [] [] 0x00 0xFFFF)
      (fun t => t.pc = 0x0002 ∧ t.ir = 0x00AA) := by decide

/-- NOP: vector V81, R157. -/
theorem test_nopMem6_V81 :
    stepGives (vector 0x0100 0xB123 [(.r0, 0x01)] [] 0x00 0xFFFF)
      (fun t => t.pc = 0x0104 ∧ t.ir = 0x0000) := by decide

/-- NOP: vector V82, R158. -/
theorem test_nopMem7_V82 :
    stepGives (vector 0x0100 0xB800 [(.r0, 0x01)] [] 0x00 0xFFFF)
      (fun t => t.pc = 0x0104 ∧ t.ir = 0x0000) := by decide

/-- JMP #0x00: vector V84, R171. -/
theorem test_jmp_V84 :
    stepGives (vector 0x0300 0xC000 [] [(0xFFFE, 0x11)] 0x00 0xFFFF)
      (fun t => t.pc = 0x0000 ∧ t.ir = 0x0011) := by decide

/-- JMP #0x01: vector V85, R171. -/
theorem test_jmp_V85 :
    stepGives (vector 0x0300 0xC001 [] [(0x0000, 0x05), (0x0001, 0x40)] 0x00 0xFFFF)
      (fun t => t.pc = 0x0001 ∧ t.ir = 0x4005) := by decide

/-- JLE r0, r1, #-4: vector V93, R173. -/
theorem test_jle_V93 :
    stepGives (vector 0x0010 0xC83C [(.r0, 0x04), (.r1, 0x03)] [] 0x00 0xFFFF)
      (fun t => t.pc = 0x0014 ∧ t.ir = 0x0000) := by decide

/-- JLE r0, r1, #6: vector V94, R173. -/
theorem test_jle_V94 :
    stepGives (vector 0x0010 0xC826 [(.r0, 0x00), (.r1, 0xFF)] [] 0x00 0xFFFF)
      (fun t => t.pc = 0x0018 ∧ t.ir = 0x0000) := by decide

/-- JGE r2, r3, #6: vector V97, R174. -/
theorem test_jge_V97 :
    stepGives (vector 0x0010 0xD266 [(.r2, 0x10), (.r3, 0x20)] [] 0x00 0xFFFF)
      (fun t => t.pc = 0x0014 ∧ t.ir = 0x0000) := by decide

/-- JGE r0, r1, #6: vector V98, R174. -/
theorem test_jge_V98 :
    stepGives (vector 0x0010 0xD026 [(.r0, 0xFF), (.r1, 0x00)] [] 0x00 0xFFFF)
      (fun t => t.pc = 0x0018 ∧ t.ir = 0x0000) := by decide

/-- JEQ r0, r3, #4: vector V99, R175. -/
theorem test_jeq_V99 :
    stepGives (vector 0x000A 0xD864 [(.r0, 0x00), (.r3, 0x00)] [] 0x00 0xFFFF)
      (fun t => t.pc = 0x0010 ∧ t.ir = 0x0000) := by decide

/-- JEQ r0, r3, #4: vector V100, R175. -/
theorem test_jeq_V100 :
    stepGives (vector 0x000A 0xD864 [(.r0, 0x01), (.r3, 0x00)] [] 0x01 0xFFFF)
      (fun t => t.pc = 0x000E ∧ t.ir = 0x0000) := by decide

/-- JLZ #4: vector V101, R176. -/
theorem test_jlz_V101 :
    stepGives (vector 0x0008 0xE004 [] [] 0x02 0xFFFF)
      (fun t => t.pc = 0x000E ∧ t.ir = 0x0000) := by decide

/-- JLZ #4: vector V102, R176. -/
theorem test_jlz_V102 :
    stepGives (vector 0x0008 0xE004 [] [] 0x01 0xFFFF)
      (fun t => t.pc = 0x000C ∧ t.ir = 0x0000) := by decide

/-- JGZ #-4: vector V103, R177. -/
theorem test_jgz_V103 :
    stepGives (vector 0x0006 0xE8FC [] [] 0x00 0xFFFF)
      (fun t => t.pc = 0x0004 ∧ t.ir = 0x0000) := by decide

/-- JGZ #-4: vector V104, R177. -/
theorem test_jgz_V104 :
    stepGives (vector 0x0006 0xE8FC [] [] 0x01 0xFFFF)
      (fun t => t.pc = 0x000A ∧ t.ir = 0x0000) := by decide

/-- JRL #0: vector V88, R172. -/
theorem test_jrl_V88 :
    stepGives (vector 0x0040 0xF000 [(.r0, 0x09)] [] 0x00 0xFFFF)
      (fun t => t.pc = 0x0042 ∧ t.ir = 0xF000) := by decide

/-- JRL #127: vector V91, R172. -/
theorem test_jrl_V91 :
    stepGives (vector 0xFFF0 0xF07F [] [] 0x00 0xFFFF)
      (fun t => t.pc = 0x0071 ∧ t.ir = 0x0000) := by decide

/-- NOP: vector V106, R178. -/
theorem test_nopBranch_V106 :
    stepGives (vector 0x0100 0xFFFF [(.r0, 0x01)] [] 0x0F 0xFFFF)
      (fun t => t.sr = 0x0F) := by decide

/-! ### Reset, the fill step and the host (95 section 3) -/

/-- T2: one step with nothing loaded. -/
theorem test_fill_empty :
    stepGives State.reset (fun t => t = ((State.reset.setSr 0x01).setPc 2)) := by decide

/-- T3: the host loads ADD r0, #5 after construction; the fill step fetches it. -/
theorem test_fill_loaded :
    stepGives (State.launch [(⟨0, by decide⟩, 0x05), (⟨1, by decide⟩, 0x40)])
      (fun t => t.ir = 0x4005 ∧ t.sr = 0x01 ∧ t.pc = 2 ∧ t.reg .r0 = 0) := by decide

/-- withFetchWord runs the word as the first instruction: E2's ADD r0, #10, on r0 = 0. -/
theorem test_withFetchWord :
    stepGives (State.reset.withFetchWord 16 0x400A) (fun t => t.reg .r0 = 10 ∧ t.pc = 2) := by
  decide

/-- A write of the value an unlisted cell reads as removes the entry, so equal memories are equal
lists (R33). -/
theorem test_memory_canonical :
    ((State.reset.memWrite 7 1).memWrite 3 2).mem = [(3, 2), (7, 1)] ∧
    ((State.reset.memWrite 7 1).memWrite 65542 0).mem = [] := by decide

/-- An unsorted list, a listed zero and a cell outside the buffer are not canonical. -/
theorem test_memory_not_canonical :
    Memory.wf [(7, 1), (3, 2)] = false ∧ Memory.wf [(3, 0)] = false ∧
    Memory.wf [(65535, 1)] = false ∧ Memory.wf [(3, 2), (65534, 1)] = true := by decide

/-! ### The assembler (R72, R73, R179) -/

theorem test_assemble_text :
    assembleLine [] 0 "LDR r4, [#0x10]".toList = some (.ldr .sal 0x10) ∧
    assembleLine [] 0 "JLE r0, r1, #-4".toList = some (.jle .r0 .r1 (-4)) ∧
    assembleLine [] 0 "ADD r0, #256".toList = none := by decide

theorem test_assemble_pseudo :
    assembleLine [] 0 "CLR r3".toList = some (.xorRR .r3 .r3) ∧
    assembleLine [] 0 "HALT".toList = some (.jrl 0) ∧
    assembleLine [("L".toList, 0x10)] 0x14 "JA L".toList = some (.jmp 0x12) := by decide

/-! ### Witnesses of the statements' hypotheses

Where a statement's only hypothesis is `exec i s = .next t`, t is the state that exec answers. -/

/-- DecodeOfEncodeGivesInstruction: well-formed instructions at the ends of their fields. -/
theorem witness_DecodeOfEncode : WellFormed (.jrl (-128)) ∧ WellFormed (.jrl 127) ∧
    WellFormed (.jeq .r7 .r0 (-16)) ∧ WellFormed (.jeq .r7 .r0 15) ∧ WellFormed (.jmp 255) := by
  decide

/-- IgnoredBitsChangeNothing: two different words that agree on the bits read. -/
theorem witness_IgnoredBits : (0x003F : Word) ≠ 0x0020 ∧
    (0x003F : Word) &&& (decodeWord 0x003F).usedBits = 0x0020 &&& (decodeWord 0x003F).usedBits := by
  decide

/-- AssemblerRejectsOutOfRange, first clause: a line that is accepted. -/
theorem witness_Assembler_accepts : assemble 0x14 .jle [.reg .r0, .reg .r1, .label 4] =
    some (.jle .r0 .r1 (-16)) := by decide

/-- AssemblerRejectsOutOfRange: a number and a label of the same displacement. -/
theorem witness_Assembler_operands :
    (AsmOperand.imm (-16) = .imm (-16) ∨
      ∃ l : Nat, AsmOperand.imm (-16) = .label l ∧ (l : Int) - 20 = -16) ∧
    (AsmOperand.label 4 = .imm (-16) ∨
      ∃ l : Nat, AsmOperand.label 4 = .label l ∧ (l : Int) - 20 = -16) :=
  ⟨Or.inl rfl, Or.inr ⟨4, rfl, rfl⟩⟩

/-- AssemblerRejectsOutOfRange: labels at the ends of each range and one past them (R179). -/
theorem witness_Assembler_labels :
    assemble 128 .jrl [.label 0] = some (.jrl (-128)) ∧ assemble 129 .jlz [.label 0] = none ∧
    assemble 0 .b [.label 127] = some (.jrl 127) ∧ assemble 0 .jgz [.label 128] = none ∧
    assemble 16 .jge [.reg .r0, .reg .r1, .label 0] = some (.jge .r0 .r1 (-16)) ∧
    assemble 17 .jeq [.reg .r0, .reg .r1, .label 0] = none ∧
    assemble 0 .jle [.reg .r0, .reg .r1, .label 15] = some (.jle .r0 .r1 15) ∧
    assemble 0 .jle [.reg .r0, .reg .r1, .label 16] = none ∧
    assemble 0 .ja [.label 253] = some (.jmp 255) ∧ assemble 0 .ja [.label 254] = none := by decide

/-- AssemblerRejectsOutOfRange: 8-bit fields at their ends and one past them (R72). -/
theorem witness_Assembler_fields :
    assemble 0 .sub [.reg .r0, .imm 255] = some (.subRI .r0 255) ∧
    assemble 0 .sub [.reg .r0, .imm 256] = none ∧ assemble 0 .lsl [.reg .r0, .imm (-1)] = none ∧
    assemble 0 .str [.reg .r0, .memory 0] = some (.str .r0 0) ∧
    assemble 0 .ldr [.reg .r0, .memory 256] = none ∧ assemble 0 .jmp [.imm 256] = none := by decide

/-- StepRunsLatchedInstruction: MUL is latched. -/
theorem witness_StepRuns : decodeWord (running 0x2800).ir = .mul := by decide

/-- LatchHoldsWordBeforePc: a step that answers next. -/
theorem witness_LatchHolds : step (running 0x2800) = .next (nextOf (step (running 0x2800))) := rfl

/-- OnlyTransfersMovePc: an instruction that transfers no control, at an even pc. -/
theorem witness_OnlyTransfers :
    (decodeWord (running 0x2800).ir).transfersControl = false ∧
    exec .mul (running 0x2800) = .next (nextOf (exec .mul (running 0x2800))) ∧
    step (running 0x2800) = .next (nextOf (step (running 0x2800))) ∧
    (running 0x2800).pc.toNat % 2 = 0 := ⟨by decide, rfl, rfl, by decide⟩

/-- SelfLoopKeepsState: the end of a run (V88). -/
theorem witness_SelfLoop : (vector 0x0040 0xF000 [(.r0, 9)] [] 0x00 0xFFFF).atEnd :=
  ⟨by decide, by decide⟩

/-- LaunchMemoryIsTheImage: an address that the host does not write, and a byte written twice. -/
theorem witness_LaunchMemory :
    let a : Fin Config.memSize := ⟨2, by decide⟩
    let b : Fin Config.memSize := ⟨65534, by decide⟩
    a ∉ [(b, (5 : Byte))].map Prod.fst ∧
    b ∉ ([(a, 5)] : List (Fin Config.memSize × Byte)).map Prod.fst := by decide

/-- HostWriteKeepsLatchedInstruction: the host's cell is apart from the one that LDR reads, and is the
latched instruction's own low byte, which the step does not latch. -/
theorem witness_HostWrite_ldr :
    let s := running 0x8010
    0x0100 ∉ s.cellsRead (decodeWord s.ir) ∧ (decodeWord s.ir).storesMemory = false ∧
    s.cellsRead (decodeWord s.ir) = [0x0010] ∧
    0x0100 ≠ phys ((nextOf (step s)).pc - 2).toNat ∧
    0x0100 ≠ phys (((nextOf (step s)).pc - 2).toNat + 1) := by decide

/-- HostWriteKeepsLatchedInstruction: the host's cell is the one that PUSH stores to, and one beside
it. -/
theorem witness_HostWrite_push :
    let s := running 0x9100
    s.cellsRead (decodeWord s.ir) = [] ∧ 0x2000 ∈ s.cellsStored (decodeWord s.ir) ∧
    0x1FFF ∉ s.cellsStored (decodeWord s.ir) := by decide

/-- HostWriteKeepsLatchedInstruction: the cells that POP PC reads at the wrap, and one beside them. -/
theorem witness_HostWrite_pop :
    let s := (running 0x9802).setSp 0xFFFD
    s.cellsRead (decodeWord s.ir) = [0xFFFE, 0x0000] ∧
    0x0001 ∉ s.cellsRead (decodeWord s.ir) := by decide

/-- CanonicalMemoryIsExtensional: a canonical memory that is not empty, taken twice. -/
theorem witness_CanonicalMemory : Memory.wf [(0, 1), (65534, 2)] = true ∧
    ∀ k, Memory.read k [(0, 1), (65534, 2)] = Memory.read k [(0, 1), (65534, 2)] :=
  ⟨by decide, fun _ => rfl⟩

/-- StepKeepsMemoryCanonical: a push at sp = 0xFFFF from a canonical state. -/
theorem witness_StepKeepsCanonical : (vector 0x0100 0x9100 [(.r1, 0x42)] [] 0x00 0xFFFF).canonical ∧
    step (vector 0x0100 0x9100 [(.r1, 0x42)] [] 0x00 0xFFFF) =
      .next (nextOf (step (vector 0x0100 0x9100 [(.r1, 0x42)] [] 0x00 0xFFFF))) :=
  ⟨by unfold State.canonical; decide, rfl⟩

/-- OnlyMemoryInstructionsTouchMemory: LDR stores nothing, MUL touches nothing. -/
theorem witness_OnlyMemory :
    Instr.storesMemory (.ldr .r0 0) = false ∧ Instr.touchesMemory .mul = false ∧
    exec (.ldr .r0 0) (running 0x8000) = .next (nextOf (exec (.ldr .r0 0) (running 0x8000))) ∧
    exec .mul (running 0x2800) = .next (nextOf (exec .mul (running 0x2800))) :=
  ⟨rfl, rfl, rfl, rfl⟩

/-- StoreIsSeenBySameStepsPrefetch: stores to the low byte of the next word, to its high byte (V58)
and elsewhere. -/
theorem witness_StoreIsSeen :
    decodeWord (vector 0x0100 0x8902 [(.r7, 1)] [] 0x00 0xFFFF).ir = .str .r1 2 ∧
    phys ((vector 0x0100 0x8902 [(.r7, 1)] [] 0x00 0xFFFF).eaStore 2) = 0x0102 ∧
    decodeWord (vector 0x0100 0x8903 [(.r7, 1)] [] 0x00 0xFFFF).ir = .str .r1 3 ∧
    phys ((vector 0x0100 0x8903 [(.r7, 1)] [] 0x00 0xFFFF).eaStore 3) = 0x0103 ∧
    decodeWord (vector 0x0100 0x8904 [(.r7, 1)] [] 0x00 0xFFFF).ir = .str .r1 4 ∧
    phys ((vector 0x0100 0x8904 [(.r7, 1)] [] 0x00 0xFFFF).eaStore 4) = 0x0104 := by decide

/-- OnlyStackInstructionsUseSp: LDR. -/
theorem witness_OnlyStack : Instr.usesStack (.ldr .r0 0) = false ∧
    exec (.ldr .r0 0) (running 0x8000) = .next (nextOf (exec (.ldr .r0 0) (running 0x8000))) :=
  ⟨rfl, rfl⟩

/-- NoHandlerUsesLatch: POP PC. -/
theorem witness_NoHandlerUsesLatch :
    exec .popPC (running 0x9802) = .next (nextOf (exec .popPC (running 0x9802))) := rfl

/-- HandlersWriteOnlyListedRegisters: ADD r1, r2, and a register that it does not write. -/
theorem witness_ListedRegisters : Reg.r2 ∉ Instr.regWrites (.addRR .r1 .r2) ∧
    exec (.addRR .r1 .r2) (running 0x0140) =
      .next (nextOf (exec (.addRR .r1 .r2) (running 0x0140))) := ⟨by decide, rfl⟩

/-- HandlersWriteOnlyListedFlags, PopStatus: an instruction other than POP SR. -/
theorem witness_ListedFlags : Instr.addRR .r1 .r2 ≠ .popSR ∧
    exec (.addRR .r1 .r2) (running 0x0140) =
      .next (nextOf (exec (.addRR .r1 .r2) (running 0x0140))) := ⟨by decide, rfl⟩

/-- OnlyStatusReadersDependOnStatus: DIV by 7, and an instruction other than DIV. -/
theorem witness_StatusReaders :
    Instr.readsStatus .div = false ∧ Instr.readsStatus .mul = false ∧ Instr.mul ≠ .div ∧
    (vector 0x0100 0x3000 [(.r0, 7), (.r1, 100)] [] 0x00 0xFFFF).reg .r0 ≠ 0 ∧
    exec .div (vector 0x0100 0x3000 [(.r0, 7), (.r1, 100)] [] 0x00 0xFFFF) =
      .next (nextOf (exec .div (vector 0x0100 0x3000 [(.r0, 7), (.r1, 100)] [] 0x00 0xFFFF))) ∧
    exec .mul (running 0x2800) = .next (nextOf (exec .mul (running 0x2800))) :=
  ⟨rfl, rfl, by decide, by decide, rfl, rfl⟩

/-- LinkedModeIgnoresDestinationPair: SL set, and registers that are not of the destination pair. -/
theorem witness_LinkedMode :
    Reg.r0 ≠ .dal ∧ Reg.r0 ≠ .dah ∧ ((running 0x8810).setSr 0x10).flagSL = true ∧
    exec (.str .r0 0x10) ((running 0x8810).setSr 0x10) =
      .next (nextOf (exec (.str .r0 0x10) ((running 0x8810).setSr 0x10))) ∧
    exec (.ldr .r0 0x10) ((running 0x8010).setSr 0x10) =
      .next (nextOf (exec (.ldr .r0 0x10) ((running 0x8010).setSr 0x10))) :=
  ⟨by decide, by decide, by decide, rfl, rfl⟩

/-- DivWritesQuotientOrNothing: a zero divisor (V24) and divisors 1 and 255. -/
theorem witness_Div :
    (vector 0x0100 0x3000 [(.r1, 0x2A)] [] 0x0F 0xFFFF).reg .r0 = 0 ∧
    (vector 0x0100 0x3000 [(.r0, 1), (.r1, 0xFF)] [] 0x0E 0xFFFF).reg .r0 ≠ 0 ∧
    (vector 0x0100 0x3000 [(.r0, 0xFF), (.r1, 0xFF)] [] 0x0E 0xFFFF).reg .r0 ≠ 0 := by decide

/-- ShiftLeft, ShiftRight, ShiftCarryIsLastBitOut: the counts where the carry's clauses meet. -/
theorem witness_Shift : (1 : Byte) ≠ 0 ∧ (8 : Byte) ≠ 0 ∧ (8 : Byte).toNat ≤ 8 ∧ (9 : Byte) ≠ 0 ∧
    ¬ (9 : Byte).toNat ≤ 8 ∧ (255 : Byte) ≠ 0 ∧
    exec (.lsl .r0 8) (running 0x6808) = .next (nextOf (exec (.lsl .r0 8) (running 0x6808))) ∧
    exec (.lsr .r0 8) (running 0x7008) = .next (nextOf (exec (.lsr .r0 8) (running 0x7008))) :=
  ⟨by decide, by decide, by decide, by decide, by decide, by decide, rfl, rfl⟩

/-- OverflowFlagIsSignedOverflow: each of its four instructions answers next. -/
theorem witness_Overflow :
    exec (.addRR .r0 .r1) (running 0x0020) =
      .next (nextOf (exec (.addRR .r0 .r1) (running 0x0020))) ∧
    exec (.subRR .r0 .r1) (running 0x0820) =
      .next (nextOf (exec (.subRR .r0 .r1) (running 0x0820))) ∧
    exec (.addRI .r0 1) (running 0x4001) = .next (nextOf (exec (.addRI .r0 1) (running 0x4001))) ∧
    exec (.subRI .r0 1) (running 0x4801) = .next (nextOf (exec (.subRI .r0 1) (running 0x4801))) :=
  ⟨rfl, rfl, rfl, rfl⟩

/-- EffectiveAddresses, StoreWritesOneCell: SL clear and SL set. -/
theorem witness_EffectiveAddresses : (running 0x8810).sr.getLsbD 4 = false ∧
    ((running 0x8810).setSr 0x10).sr.getLsbD 4 = true := by decide

/-- The frames of stores: addresses in other cells than the one stored to, at the wrap. -/
theorem witness_OtherCells : phys 0xFFFE ≠ phys 0xFFFF ∧ phys 1 ≠ phys 0xFFFF ∧
    phys 0 = phys 0xFFFF := by decide

/-- PushPcHighByteFirst: sp = 0xFFFF and sp = 1 are not 0, and cell 2 is neither pushed byte's. -/
theorem witness_PushPc : (0xFFFF : Word) ≠ 0 ∧ (1 : Word) ≠ 0 ∧
    phys 2 ≠ phys (1 : Word).toNat ∧ phys 2 ≠ phys ((1 : Word) - 1).toNat := by decide

/-- PushPcHighByteFirst at sp = 0: both bytes fall in cell 0, which keeps the low byte 0x36 of pc
(log entry 9); cell 2 is apart. -/
theorem witness_PushPc_at_zero :
    let s := vector 0x1234 0x9002 [] [] 0x00 0x0000
    let t := nextOf (exec .pushPC s)
    s.sp = 0 ∧ phys s.sp.toNat = 0 ∧ phys (s.sp - 1).toNat = 0 ∧ t.memRead 0 = 0x36 ∧
    phys 2 ≠ phys s.sp.toNat ∧ phys 2 ≠ phys (s.sp - 1).toNat := by decide

/-- PopPcLandsOnPoppedAddress: POP PC is latched and answers next. -/
theorem witness_PopPc : decodeWord (running 0x9802).ir = .popPC ∧
    exec .popPC (running 0x9802) = .next (nextOf (exec .popPC (running 0x9802))) :=
  ⟨by decide, rfl⟩

/-- PushThenPopRestores: the pushed cell is apart from the POP. -/
theorem witness_PushThenPop_apart :
    let s := vector 0x0100 0x9100 [(.r1, 0x5A)] [(0x0103, 0x99)] 0x00 0xFFFF
    decodeWord s.ir = .pushReg .r1 ∧ decodeWord (s.fetchWord s.pc.toNat) = .popReg .r1 ∧
    phys s.sp.toNat ≠ phys s.pc.toNat ∧ phys s.sp.toNat ≠ phys (s.pc.toNat + 1) := by decide

/-- PushThenPopRestores: the pushed cell is the POP's low byte, and already holds the byte (C9). -/
theorem witness_PushThenPop_same :
    let s := vector 0x0100 0x9100 [] [(0x0103, 0x99)] 0x00 0x0102
    decodeWord s.ir = .pushReg .r1 ∧ decodeWord (s.fetchWord s.pc.toNat) = .popReg .r1 ∧
    phys s.sp.toNat = phys s.pc.toNat ∧ s.memRead s.sp.toNat = s.reg .r1 := by decide

/-- PopPcReturnsToPushedAddress: after the PUSH PC a byte elsewhere has been stored and a register
changed, and POP PC is latched. -/
theorem witness_PopPcReturns :
    let s := vector 0x0004 0x9002 [] [] 0x00 0xFFFF
    let t := nextOf (exec .pushPC s)
    let r := ((t.memWrite 0x0300 0x77).setReg .r0 1).setIr 0x9802
    s.sp ≠ 0 ∧ r.sp = t.sp ∧ r.memRead s.sp.toNat = t.memRead s.sp.toNat ∧
    r.memRead (s.sp - 1).toNat = t.memRead (s.sp - 1).toNat ∧
    r.memRead 0x0300 ≠ t.memRead 0x0300 ∧ decodeWord r.ir = .popPC := by decide

/-- PopPcReturnsToPushedAddress: that PUSH PC answers next. -/
theorem witness_PopPcReturns_push :
    exec .pushPC (vector 0x0004 0x9002 [] [] 0x00 0xFFFF) =
      .next (nextOf (exec .pushPC (vector 0x0004 0x9002 [] [] 0x00 0xFFFF))) := rfl

/-- JumpLandsOnAbsoluteTarget: the targets at the ends of the field. -/
theorem witness_Jump : decodeWord (running 0xC000).ir = .jmp 0 ∧
    decodeWord (running 0xC001).ir = .jmp 1 ∧ decodeWord (running 0xC0FF).ir = .jmp 255 := by decide

/-- RelativeJump: JRL #0, latched from memory that holds it. -/
theorem witness_RelativeJump : decodeWord (running 0xF000).ir = .jrl 0 ∧
    (running 0xF000).ir = (running 0xF000).fetchWord ((running 0xF000).pc - 2).toNat := by decide

/-- CompareBranches: each comparison holds on equal registers; each fails on some. -/
theorem witness_Compare :
    let e := machine [(.r0, 3), (.r1, 3)] [] 0x00 0xFFFF
    let g := machine [(.r0, 4), (.r1, 3)] [] 0x00 0xFFFF
    (e.reg .r0).toNat ≤ (e.reg .r1).toNat ∧ ¬ (g.reg .r0).toNat ≤ (g.reg .r1).toNat ∧
    (e.reg .r0).toNat ≥ (e.reg .r1).toNat ∧ ¬ (g.reg .r1).toNat ≥ (g.reg .r0).toNat ∧
    e.reg .r0 = e.reg .r1 ∧ ¬ g.reg .r0 = g.reg .r1 := by decide

/-- FlagBranches: N set, N and Z clear, and only Z set. -/
theorem witness_FlagBranches : (0x02 : Byte).getLsbD 1 = true ∧
    ((0x00 : Byte).getLsbD 1 = false ∧ (0x00 : Byte).getLsbD 0 = false) ∧
    ¬ ((0x01 : Byte).getLsbD 1 = false ∧ (0x01 : Byte).getLsbD 0 = false) := by decide

/-- TakenBranchLatchesTargetWord: one state for each of its six cases. -/
theorem witness_TakenBranch :
    decodeWord (running 0xF004).ir = .jrl 4 ∧
    (decodeWord (running 0xC83C).ir = .jle .r0 .r1 (-4) ∧
      ((running 0xC83C).reg .r0).toNat ≤ ((running 0xC83C).reg .r1).toNat) ∧
    (decodeWord (running 0xD266).ir = .jge .r2 .r3 6 ∧
      ((running 0xD266).reg .r3).toNat ≤ ((running 0xD266).reg .r2).toNat) ∧
    (decodeWord (running 0xD864).ir = .jeq .r0 .r3 4 ∧
      (running 0xD864).reg .r0 = (running 0xD864).reg .r3) ∧
    (decodeWord ((running 0xE004).setSr 0x02).ir = .jlz 4 ∧
      ((running 0xE004).setSr 0x02).flagN = true) ∧
    (decodeWord (running 0xE8FC).ir = .jgz (-4) ∧ (running 0xE8FC).flagN = false ∧
      (running 0xE8FC).flagZ = false) := by decide

/-- NoOpsChangeOnlyLatchAndPc: a word of each of its eight rows. -/
theorem witness_NoOps :
    (running 0x3FFF).ir &&& 0xF800 = 0x3800 ∧ (running 0x7855).ir &&& 0xF800 = 0x7800 ∧
    (running 0x97FF).ir &&& 0xF803 = 0x9003 ∧ (running 0x9803).ir &&& 0xF803 = 0x9803 ∧
    (running 0xAFFC).ir &&& 0xF803 = 0xA800 ∧ (running 0xB123).ir &&& 0xF800 = 0xB000 ∧
    (running 0xB800).ir &&& 0xF800 = 0xB800 ∧ (running 0xFFFF).ir &&& 0xF800 = 0xF800 := by decide

end Sys2Proof.Tests
end

section
/-! What the reset state answers to each observer (R34), and the obligation about it. -/

namespace Sys2Proof.Machine

@[simp] theorem State.reset_sr : State.reset.sr = 0 := rfl
@[simp] theorem State.reset_pc : State.reset.pc = 0 := rfl
@[simp] theorem State.reset_sp : State.reset.sp = 0xFFFF := rfl
@[simp] theorem State.reset_ir : State.reset.ir = 0 := rfl
@[simp] theorem State.reset_mem : State.reset.mem = [] := rfl

/-- Every register is 0 after construction (R34). -/
@[simp] theorem State.reset_reg (r : Reg) : State.reset.reg r = 0 := by
  cases r <;> rfl

/-- The buffer is zero-initialised, at every address (R33, R34, R40). -/
@[simp] theorem State.reset_memRead (a : Nat) : State.reset.memRead a = 0 := by
  rw [State.memRead, State.reset_mem, Memory.read_nil, Config.unlistedByte]

/-- So whatever address it is fetched from, the word is 0x0000 (R43). -/
@[simp] theorem State.reset_fetchWord (a : Nat) : State.reset.fetchWord a = 0 := by
  rw [State.fetchWord, State.reset_memRead, State.reset_memRead]
  rfl

/-- Settles O12: each clause is the reset state's answer to one observer, and the latch holds what a
fetch from zeroed memory gives. -/
theorem resetValues : Obligations.ResetValues := by
  have hir : State.reset.ir = State.reset.fetchWord 0 := by
    rw [State.reset_ir, State.reset_fetchWord]
  exact ⟨State.reset_reg, State.reset_sr, State.reset_pc, State.reset_sp, State.reset_memRead,
    State.reset_ir, hir⟩

end Sys2Proof.Machine
end

section
/-! Reads and fetches through the address wrap (20_memory.md R40, R43), and the obligation about
them. -/

namespace Sys2Proof.Machine

/-- A read wraps its own address, so wrapping that address beforehand changes nothing (R40). -/
@[simp] theorem State.memRead_mod (s : State) (a : Nat) :
    s.memRead (a % 65535) = s.memRead a := by
  have hwrap : phys (a % 65535) = phys a := phys_phys a
  rw [State.memRead, State.memRead, hwrap]

/-- The value of a fetched word: the byte at the lower address is the low one (R43). -/
theorem State.fetchWord_toNat (s : State) (a : Nat) :
    (s.fetchWord a).toNat = 256 * (s.memRead (a + 1)).toNat + (s.memRead a).toNat := by
  rw [State.fetchWord, wordOfBytes_toNat]

/-- Settles O17: a fetch reads a and the integer sum a + 1, and each read wraps its own address. -/
theorem fetchIsLittleEndian : Obligations.FetchIsLittleEndian := by
  intro s a
  rw [State.fetchWord_toNat, State.memRead_mod, State.memRead_mod]

end Sys2Proof.Machine
end

section
/-! The cycle of a step: every handler completes, and the prefetch follows it (30_encoding.md R80),
and the obligation about it. -/

namespace Sys2Proof.Machine

/-- The prefetch as a record update: of the state that the handler left, only ir and pc change (R80). -/
theorem State.prefetch_eq (s : State) :
    s.prefetch = { s with ir := s.fetchWord s.pc.toNat, pc := s.pc + 2 } := rfl

/-- DIV completes for a zero divisor as for any other (R106). -/
theorem execDiv_completes (s : State) : ∃ t, execDiv s = .next t := by
  by_cases h : (s.reg .r0).toNat = 0
  · exact ⟨_, execDiv_of_zero s h⟩
  · exact ⟨_, execDiv_of_ne_zero s h⟩

/-- No handler faults or refuses (R82, R200). DIV alone chooses between two outcomes; each other
handler is a single `next`. -/
theorem exec_completes (i : Instr) (s : State) : ∃ t, exec i s = .next t := by
  cases i with
  | div => exact execDiv_completes s
  | _ => exact ⟨_, rfl⟩

/-- Settles O7: the handler of the latched instruction completes, and the step is the prefetch of
what it left. -/
theorem stepRunsLatchedInstruction : Obligations.StepRunsLatchedInstruction := by
  rintro s _ rfl
  obtain ⟨t, hexec⟩ := exec_completes (decodeWord s.ir) s
  have hstep : step s = .next t.prefetch := step_of_exec hexec
  rw [State.prefetch_eq] at hstep
  exact ⟨t, hexec, hstep⟩

end Sys2Proof.Machine
end

section
/-! The row a word lies in (30_encoding.md R71) fixes its class, sub-opcode and selector (R66 to
R68), and with them the entry of the table that decodes it. -/

namespace Sys2Proof

/-- A bit under a mask is the bit of what the masked word equals. -/
theorem getLsbD_of_and_eq {w mask p : Word} (h : w &&& mask = p) {i : Nat}
    (hi : mask.getLsbD i = true) : w.getLsbD i = p.getLsbD i := by
  rw [← h, BitVec.getLsbD_and, hi, Bool.and_true]

theorem fieldCls_of_opcode {w p : Word} (h : w &&& 0xF800 = p) : fieldCls w = fieldCls p := by
  rw [fieldCls, fieldCls, getLsbD_of_and_eq h (i := 15) rfl, getLsbD_of_and_eq h (i := 14) rfl]

theorem fieldSub_of_opcode {w p : Word} (h : w &&& 0xF800 = p) : fieldSub w = fieldSub p := by
  rw [fieldSub, fieldSub, getLsbD_of_and_eq h (i := 13) rfl, getLsbD_of_and_eq h (i := 12) rfl,
    getLsbD_of_and_eq h (i := 11) rfl]

theorem fieldSel_of_selector {w p : Word} (h : w &&& 0xF803 = p) : fieldSel w = fieldSel p := by
  rw [fieldSel, fieldSel, getLsbD_of_and_eq h (i := 1) rfl, getLsbD_of_and_eq h (i := 0) rfl]

/-- A row with a selector lies inside the row of its opcode. -/
theorem opcode_of_selector {w p : Word} (h : w &&& 0xF803 = p) : w &&& 0xF800 = p &&& 0xF800 := by
  rw [← h, BitVec.and_assoc]
  rfl

section
variable {w : Word}

theorem decodeWord_arithRR (h : fieldCls w = .arithRR) : decodeWord w = decodeArithRR w := by
  rw [decodeWord, h]

theorem decodeWord_arithRI (h : fieldCls w = .arithRI) : decodeWord w = decodeArithRI w := by
  rw [decodeWord, h]

theorem decodeWord_memStack (h : fieldCls w = .memStack) : decodeWord w = decodeMemStack w := by
  rw [decodeWord, h]

theorem decodeWord_branch (h : fieldCls w = .branch) : decodeWord w = decodeBranch w := by
  rw [decodeWord, h]

theorem decodeMemStack_push (h : fieldSub w = .s2) : decodeMemStack w = decodePush w := by
  rw [decodeMemStack, h]

theorem decodeMemStack_pop (h : fieldSub w = .s3) : decodeMemStack w = decodePop w := by
  rw [decodeMemStack, h]

theorem decodeMemStack_mvs (h : fieldSub w = .s5) : decodeMemStack w = decodeMvs w := by
  rw [decodeMemStack, h]

end

/-- Decoding a row of an 8-entry table: the class picks the table, the sub-opcode the entry. -/
theorem decodeWord_of_opcode {p : Word} {table entry : Word → Instr}
    (htable : ∀ w, fieldCls w = fieldCls p → decodeWord w = table w)
    (hentry : ∀ w, fieldSub w = fieldSub p → table w = entry w) :
    ∀ w, w &&& 0xF800 = p → decodeWord w = entry w := fun w h =>
  (htable w (fieldCls_of_opcode h)).trans (hentry w (fieldSub_of_opcode h))

/-- Decoding a row of a selector table of class 2: the sub-opcode picks the table, the selector the
entry. -/
theorem decodeWord_of_selector {p : Word} {table entry : Word → Instr}
    (hcls : fieldCls (p &&& 0xF800) = .memStack)
    (htable : ∀ w, fieldSub w = fieldSub (p &&& 0xF800) → decodeMemStack w = table w)
    (hentry : ∀ w, fieldSel w = fieldSel p → table w = entry w) :
    ∀ w, w &&& 0xF803 = p → decodeWord w = entry w := fun w h =>
  have hop : w &&& 0xF800 = p &&& 0xF800 := opcode_of_selector h
  calc
    decodeWord w = decodeMemStack w := decodeWord_memStack ((fieldCls_of_opcode hop).trans hcls)
    _ = table w := htable w (fieldSub_of_opcode hop)
    _ = entry w := hentry w (fieldSel_of_selector h)

end Sys2Proof

namespace Sys2Proof.Machine

/-! ### The rows of class 0 (41_arith_rr.md) -/

theorem rowRR_addRR : RowRR 0x0000 .addRR :=
  decodeWord_of_opcode (fun _ => decodeWord_arithRR) fun w h => by rw [decodeArithRR, h]; rfl

theorem rowRR_subRR : RowRR 0x0800 .subRR :=
  decodeWord_of_opcode (fun _ => decodeWord_arithRR) fun w h => by rw [decodeArithRR, h]; rfl

theorem rowRR_xorRR : RowRR 0x1000 .xorRR :=
  decodeWord_of_opcode (fun _ => decodeWord_arithRR) fun w h => by rw [decodeArithRR, h]; rfl

theorem rowRR_andRR : RowRR 0x1800 .andRR :=
  decodeWord_of_opcode (fun _ => decodeWord_arithRR) fun w h => by rw [decodeArithRR, h]; rfl

theorem rowRR_orRR : RowRR 0x2000 .orRR :=
  decodeWord_of_opcode (fun _ => decodeWord_arithRR) fun w h => by rw [decodeArithRR, h]; rfl

theorem rowPlain_mul : RowPlain 0x2800 0xF800 .mul :=
  decodeWord_of_opcode (fun _ => decodeWord_arithRR) fun w h => by rw [decodeArithRR, h]; rfl

theorem rowPlain_div : RowPlain 0x3000 0xF800 .div :=
  decodeWord_of_opcode (fun _ => decodeWord_arithRR) fun w h => by rw [decodeArithRR, h]; rfl

/-! ### The rows of the no-ops (R107, R128, R147, R151, R153, R157, R158, R178) -/

theorem rowPlain_nopRR : RowPlain 0x3800 0xF800 .nopRR :=
  decodeWord_of_opcode (fun _ => decodeWord_arithRR) fun w h => by rw [decodeArithRR, h]; rfl

theorem rowPlain_nopRI : RowPlain 0x7800 0xF800 .nopRI :=
  decodeWord_of_opcode (fun _ => decodeWord_arithRI) fun w h => by rw [decodeArithRI, h]; rfl

theorem rowPlain_pushNop : RowPlain 0x9003 0xF803 .pushNop :=
  decodeWord_of_selector rfl (fun _ => decodeMemStack_push) fun w h => by rw [decodePush, h]; rfl

theorem rowPlain_popNop : RowPlain 0x9803 0xF803 .popNop :=
  decodeWord_of_selector rfl (fun _ => decodeMemStack_pop) fun w h => by rw [decodePop, h]; rfl

theorem rowPlain_mvsNop : RowPlain 0xA800 0xF803 .mvsNop :=
  decodeWord_of_selector rfl (fun _ => decodeMemStack_mvs) fun w h => by rw [decodeMvs, h]; rfl

theorem rowPlain_nopMem6 : RowPlain 0xB000 0xF800 .nopMem6 :=
  decodeWord_of_opcode (fun _ => decodeWord_memStack) fun w h => by rw [decodeMemStack, h]; rfl

theorem rowPlain_nopMem7 : RowPlain 0xB800 0xF800 .nopMem7 :=
  decodeWord_of_opcode (fun _ => decodeWord_memStack) fun w h => by rw [decodeMemStack, h]; rfl

theorem rowPlain_nopBranch : RowPlain 0xF800 0xF800 .nopBranch :=
  decodeWord_of_opcode (fun _ => decodeWord_branch) fun w h => by rw [decodeBranch, h]; rfl

end Sys2Proof.Machine
end

section
/-! The no-ops: a word of their rows decodes to one of the eight, and each of the eight is the
identity; and the obligation about them. -/

namespace Sys2Proof.Machine

/-- The eight instructions with no effect. -/
def noOps : List Instr :=
  [.nopRR, .nopRI, .pushNop, .popNop, .mvsNop, .nopMem6, .nopMem7, .nopBranch]

/-- A word of one of the rows of the no-ops. -/
def NoOpWord (w : Word) : Prop :=
  w &&& 0xF800 = 0x3800 ∨ w &&& 0xF800 = 0x7800 ∨ w &&& 0xF803 = 0x9003 ∨
  w &&& 0xF803 = 0x9803 ∨ w &&& 0xF803 = 0xA800 ∨ w &&& 0xF800 = 0xB000 ∨
  w &&& 0xF800 = 0xB800 ∨ w &&& 0xF800 = 0xF800

/-- A word of a no-op row decodes to the row's no-op, whatever its ignored bits are (R63, R71). -/
theorem decodeWord_mem_noOps {w : Word} (h : NoOpWord w) : decodeWord w ∈ noOps := by
  rcases h with h | h | h | h | h | h | h | h
  · rw [rowPlain_nopRR w h]; decide
  · rw [rowPlain_nopRI w h]; decide
  · rw [rowPlain_pushNop w h]; decide
  · rw [rowPlain_popNop w h]; decide
  · rw [rowPlain_mvsNop w h]; decide
  · rw [rowPlain_nopMem6 w h]; decide
  · rw [rowPlain_nopMem7 w h]; decide
  · rw [rowPlain_nopBranch w h]; decide

/-- The handler of a no-op is the identity. -/
theorem exec_of_mem_noOps {i : Instr} (hi : i ∈ noOps) (s : State) : exec i s = .next s := by
  simp only [noOps, List.mem_cons, List.not_mem_nil, or_false] at hi
  rcases hi with rfl | rfl | rfl | rfl | rfl | rfl | rfl | rfl <;> rfl

/-- Settles O59: a no-op's handler is the identity, so only the prefetch of the step is left. -/
theorem noOpsChangeOnlyLatchAndPc : Obligations.NoOpsChangeOnlyLatchAndPc := by
  refine ⟨fun _ => rfl, rfl, fun _ => exec_of_mem_noOps, fun s hword => ?_⟩
  have hexec : exec (decodeWord s.ir) s = .next s :=
    exec_of_mem_noOps (decodeWord_mem_noOps hword) s
  rw [step_of_exec hexec, State.prefetch_eq]

end Sys2Proof.Machine
end

section
/-! The flags after each group of flag writes, as the spec's formulas give them (41_arith_rr.md R90
to R92, R105, R106). A group writes sr and nothing else, so every register reads as before. -/

namespace Sys2Proof.Machine

/-- The sign bit that the model names is bit 7 of the spec's formulas. -/
theorem bit7_eq (b : Byte) : bit7 b = b.getLsbD 7 := rfl

section
variable (s : State) (q : Reg)

@[simp] theorem State.setZN_reg (res : Byte) : (s.setZN res).reg q = s.reg q := rfl
@[simp] theorem State.setZNVC_reg (r : AluResult) : (s.setZNVC r).reg q = s.reg q := rfl
@[simp] theorem State.setMulFlags_reg (p : Nat) : (s.setMulFlags p).reg q = s.reg q := rfl
@[simp] theorem State.setDivFlags_reg (p : Nat) : (s.setDivFlags p).reg q = s.reg q := rfl

end

section
variable (s : State) (r : AluResult)

@[simp] theorem State.flagZ_setZNVC : (s.setZNVC r).flagZ = r.z :=
  (setZNVC_bits r.z r.n r.v r.c s.sr).1
@[simp] theorem State.flagN_setZNVC : (s.setZNVC r).flagN = r.n :=
  (setZNVC_bits r.z r.n r.v r.c s.sr).2.1
@[simp] theorem State.flagV_setZNVC : (s.setZNVC r).flagV = r.v :=
  (setZNVC_bits r.z r.n r.v r.c s.sr).2.2.1
@[simp] theorem State.flagC_setZNVC : (s.setZNVC r).flagC = r.c :=
  (setZNVC_bits r.z r.n r.v r.c s.sr).2.2.2

end

section
variable (s : State) (p : Nat)

@[simp] theorem State.flagZ_setMulFlags : (s.setMulFlags p).flagZ = decide (p = 0) := by
  simp [State.flagZ, State.setMulFlags_eq]
@[simp] theorem State.flagN_setMulFlags : (s.setMulFlags p).flagN = p.testBit 15 := by
  simp [State.flagN, State.setMulFlags_eq]
@[simp] theorem State.flagC_setMulFlags : (s.setMulFlags p).flagC = decide (256 ≤ p) := by
  simp [State.flagC, State.setMulFlags_eq]

@[simp] theorem State.flagZ_setDivFlags : (s.setDivFlags p).flagZ = decide (p = 0) := by
  simp [State.flagZ, State.setDivFlags_eq]
@[simp] theorem State.flagN_setDivFlags : (s.setDivFlags p).flagN = false := by
  simp [State.flagN, State.setDivFlags_eq]

end

/-- An addition's flags, once written, are those of R90. -/
theorem sumFlags_setZNVC (a b : Byte) (s : State) :
    SumFlags a b (aluAdd a b).res (s.setZNVC (aluAdd a b)) := by
  refine ⟨?z, ?n, ?c, ?v⟩
  case z => rw [State.flagZ_setZNVC]; exact decide_eq_true_iff
  case n => rw [State.flagN_setZNVC]; exact Iff.rfl
  case c => rw [State.flagC_setZNVC]; exact decide_eq_true_iff
  case v =>
    rw [State.flagV_setZNVC]
    simp only [aluAdd, bit7_eq, Bool.and_eq_true, beq_iff_eq, bne_iff_ne]

/-- A subtraction's flags, once written, are those of R91. -/
theorem diffFlags_setZNVC (a b : Byte) (s : State) :
    DiffFlags a b (aluSub a b).res (s.setZNVC (aluSub a b)) := by
  refine ⟨?z, ?n, ?c, ?v⟩
  case z => rw [State.flagZ_setZNVC]; exact decide_eq_true_iff
  case n => rw [State.flagN_setZNVC]; exact Iff.rfl
  case c => rw [State.flagC_setZNVC]; exact decide_eq_true_iff
  case v =>
    rw [State.flagV_setZNVC]
    simp only [aluSub, bit7_eq, Bool.and_eq_true, bne_iff_ne]

/-- The two flags of a result, once written, are those of R92. -/
theorem resultFlags_setZN (res : Byte) (s : State) : ResultFlags res (s.setZN res) := by
  obtain ⟨hz, hn⟩ := setZN_bits (decide (res = 0)) (bit7 res) s.sr
  refine ⟨?z, ?n⟩
  case z => rw [State.flagZ, State.setZN_eq, State.setSr_sr, hz, decide_eq_true_iff]
  case n => rw [State.flagN, State.setZN_eq, State.setSr_sr, hn, bit7_eq]

/-- The difference modulo 256 (R91). -/
theorem aluSub_res_toNat (a b : Byte) :
    ((aluSub a b).res.toNat : Int) = (a.toNat - b.toNat : Int) % 256 := by
  have ha := a.isLt
  have hb := b.isLt
  simp only [aluSub, BitVec.toNat_sub]
  omega

end Sys2Proof.Machine
end

section
/-! The frame of a handler that writes only registers and flags, built up write by write: each write
of a listed register or of a bit under the mask keeps it. -/

namespace Sys2Proof.Machine

/-- Before the first write. -/
theorem RegisterFrame.refl (s : State) (written : List Reg) (mask : Byte) :
    RegisterFrame s s written mask :=
  ⟨fun _ _ => rfl, rfl, rfl, rfl, rfl, fun _ => rfl⟩

variable {s t : State} {written : List Reg} {mask : Byte}

theorem RegisterFrame.setReg (h : RegisterFrame s t written mask) {r : Reg} (hr : r ∈ written)
    (v : Byte) : RegisterFrame s (t.setReg r v) written mask := by
  obtain ⟨hregs, hrest⟩ := h
  refine ⟨fun q hq => ?_, hrest⟩
  have hne : q ≠ r := fun e => hq (e ▸ hr)
  rw [State.reg_setReg_ne t v hne, hregs q hq]

/-- A write of one bit of sr (R93). -/
theorem RegisterFrame.setBit (h : RegisterFrame s t written mask) {i : Nat} (hi : i < 8)
    (hm : mask.getLsbD i = true) (b : Bool) :
    RegisterFrame s (t.setSr (putBit i b t.sr)) written mask := by
  obtain ⟨hregs, hsr, hrest⟩ := h
  exact ⟨hregs, (putBit_outside i b t.sr mask hi hm).trans hsr, hrest⟩

/-- Z and N are written by every arithmetic and logic handler. -/
theorem RegisterFrame.setZ_setN (h : RegisterFrame s t written mask)
    (hz : mask.getLsbD 0 = true) (hn : mask.getLsbD 1 = true) (z n : Bool) :
    RegisterFrame s ((t.setZ z).setN n) written mask :=
  (h.setBit (by decide) hz z).setBit (i := 1) (by decide) hn n

/-- An addition or a subtraction writes Z, N, V and C. -/
theorem RegisterFrame.setZNVC (h : RegisterFrame s t written 0x0F) (r : AluResult) :
    RegisterFrame s (t.setZNVC r) written 0x0F :=
  have hzn : RegisterFrame s ((t.setZ r.z).setN r.n) written 0x0F := h.setZ_setN rfl rfl r.z r.n
  (hzn.setBit (by decide) rfl r.v).setBit (i := 3) (by decide) rfl r.c

/-- MUL writes Z, N and C, and V is outside its mask (R105). -/
theorem RegisterFrame.setMulFlags (h : RegisterFrame s t written 0x0B) (p : Nat) :
    RegisterFrame s (t.setMulFlags p) written 0x0B :=
  (h.setZ_setN rfl rfl (decide (p = 0)) (p.testBit 15)).setBit (i := 3) (by decide) rfl
    (decide (256 ≤ p))

/-- DIV writes Z and N, and V and C are outside its mask (R106). -/
theorem RegisterFrame.setDivFlags (h : RegisterFrame s t written 0x03) (q : Nat) :
    RegisterFrame s (t.setDivFlags q) written 0x03 :=
  h.setZ_setN rfl rfl (decide (q = 0)) false

end Sys2Proof.Machine
end

section
/-! What the handlers that write one register and its flags leave, for any right operand: the
register/register and the register/immediate forms share it. -/

namespace Sys2Proof.Machine

/-- An addition into rd (R90). -/
theorem setReg_setZNVC_aluAdd (s : State) (rd : Reg) (b : Byte) :
    let r := aluAdd (s.reg rd) b
    let t := (s.setReg rd r.res).setZNVC r
    t.reg rd = BitVec.ofNat 8 ((s.reg rd).toNat + b.toNat) ∧
    SumFlags (s.reg rd) b (t.reg rd) t ∧ RegisterFrame s t [rd] 0x0F := by
  intro r t
  have hres : t.reg rd = r.res := by simp only [t, State.setZNVC_reg, State.reg_setReg_same]
  refine ⟨hres, ?flags, ?frame⟩
  case flags => rw [hres]; exact sumFlags_setZNVC (s.reg rd) b (s.setReg rd r.res)
  case frame => exact ((RegisterFrame.refl s [rd] 0x0F).setReg List.mem_cons_self r.res).setZNVC r

/-- A subtraction from rd (R91). -/
theorem setReg_setZNVC_aluSub (s : State) (rd : Reg) (b : Byte) :
    let r := aluSub (s.reg rd) b
    let t := (s.setReg rd r.res).setZNVC r
    ((t.reg rd).toNat : Int) = ((s.reg rd).toNat - b.toNat : Int) % 256 ∧
    DiffFlags (s.reg rd) b (t.reg rd) t ∧ RegisterFrame s t [rd] 0x0F := by
  intro r t
  have hres : t.reg rd = r.res := by simp only [t, State.setZNVC_reg, State.reg_setReg_same]
  refine ⟨?value, ?flags, ?frame⟩
  case value => rw [hres]; exact aluSub_res_toNat (s.reg rd) b
  case flags => rw [hres]; exact diffFlags_setZNVC (s.reg rd) b (s.setReg rd r.res)
  case frame => exact ((RegisterFrame.refl s [rd] 0x0F).setReg List.mem_cons_self r.res).setZNVC r

/-- A result written to rd, with its Z and N; V and C are outside the mask (R92). -/
theorem setReg_setZN (s : State) (rd : Reg) (res : Byte) :
    let t := (s.setReg rd res).setZN res
    t.reg rd = res ∧ ResultFlags (t.reg rd) t ∧ RegisterFrame s t [rd] 0x03 := by
  intro t
  have hres : t.reg rd = res := by simp only [t, State.setZN_reg, State.reg_setReg_same]
  refine ⟨hres, ?flags, ?frame⟩
  case flags => rw [hres]; exact resultFlags_setZN res (s.setReg rd res)
  case frame =>
    exact ((RegisterFrame.refl s [rd] 0x03).setReg List.mem_cons_self res).setZ_setN rfl rfl
      (decide (res = 0)) (bit7 res)

/-- Settles O29: every word of the row is an ADD, and an ADD is an addition of rs into rd. -/
theorem addRegister : Obligations.AddRegister :=
  ⟨rowRR_addRR, fun rd rs s => ⟨_, rfl, setReg_setZNVC_aluAdd s rd (s.reg rs)⟩⟩

/-- Settles O30: every word of the row is a SUB, and a SUB is a subtraction of rs from rd. -/
theorem subRegister : Obligations.SubRegister :=
  ⟨rowRR_subRR, fun rd rs s => ⟨_, rfl, setReg_setZNVC_aluSub s rd (s.reg rs)⟩⟩

/-- Settles O31: each of the three writes its bitwise result to rd with the flags of that result. -/
theorem logicRegister : Obligations.LogicRegister :=
  ⟨rowRR_xorRR, rowRR_andRR, rowRR_orRR, fun rd rs s =>
    ⟨⟨_, rfl, setReg_setZN s rd (s.reg rd ^^^ s.reg rs)⟩,
     ⟨_, rfl, setReg_setZN s rd (s.reg rd &&& s.reg rs)⟩,
     ⟨_, rfl, setReg_setZN s rd (s.reg rd ||| s.reg rs)⟩⟩⟩

end Sys2Proof.Machine
end

section
/-! MUL and DIV write a 16-bit number to r3:r2 (R105, R106), and the obligations about them. -/

namespace Sys2Proof.Machine

/-- The low byte of a number in r2 and its high byte in r3. -/
def State.setPair (s : State) (p : Nat) : State :=
  (s.setReg .r2 (BitVec.ofNat 8 p)).setReg .r3 (BitVec.ofNat 8 (p / 256))

theorem State.setPair_r2 (s : State) (p : Nat) : (s.setPair p).reg .r2 = BitVec.ofNat 8 p := rfl

theorem State.setPair_r3 (s : State) (p : Nat) :
    (s.setPair p).reg .r3 = BitVec.ofNat 8 (p / 256) := rfl

/-- The pair holds the whole of a number of 16 bits. -/
theorem State.setPair_value (s : State) {p : Nat} (hp : p < 65536) :
    256 * ((s.setPair p).reg .r3).toNat + ((s.setPair p).reg .r2).toNat = p := by
  rw [State.setPair_r2, State.setPair_r3, BitVec.toNat_ofNat, BitVec.toNat_ofNat]
  omega

/-- A number of one byte is all in r2 (R106). -/
theorem State.setPair_of_lt (s : State) {q : Nat} (hq : q < 256) :
    ((s.setPair q).reg .r2).toNat = q ∧ (s.setPair q).reg .r3 = 0 := by
  rw [State.setPair_r2, State.setPair_r3, Nat.div_eq_of_lt hq, BitVec.toNat_ofNat]
  exact ⟨Nat.mod_eq_of_lt hq, rfl⟩

/-- Both registers of the pair are among the written ones. -/
theorem RegisterFrame.setPair (s : State) (mask : Byte) (p : Nat) :
    RegisterFrame s (s.setPair p) [.r2, .r3] mask :=
  ((RegisterFrame.refl s [.r2, .r3] mask).setReg (by decide) (BitVec.ofNat 8 p)).setReg (by decide)
    (BitVec.ofNat 8 (p / 256))

/-- MUL writes the product to the pair, and its flags (R105). -/
theorem exec_mul (s : State) :
    exec .mul s = .next ((s.setPair ((s.reg .r1).toNat * (s.reg .r0).toNat)).setMulFlags
      ((s.reg .r1).toNat * (s.reg .r0).toNat)) := rfl

/-- DIV by zero (R106). -/
theorem exec_div_of_zero (s : State) (h : s.reg .r0 = 0) : exec .div s = .next s :=
  execDiv_of_zero s (congrArg BitVec.toNat h)

/-- DIV by a non-zero divisor writes the quotient to the pair, and its flags (R106). -/
theorem exec_div_of_ne_zero (s : State) (h : (s.reg .r0).toNat ≠ 0) :
    exec .div s = .next ((s.setPair ((s.reg .r1).toNat / (s.reg .r0).toNat)).setDivFlags
      ((s.reg .r1).toNat / (s.reg .r0).toNat)) :=
  execDiv_of_ne_zero s h

/-- The product of two bytes fits in 16 bits. -/
theorem byte_mul_lt (a b : Byte) : a.toNat * b.toNat < 65536 :=
  Nat.mul_lt_mul'' a.isLt b.isLt

/-- The quotient of two bytes fits in a byte. -/
theorem byte_div_lt (a b : Byte) : a.toNat / b.toNat < 256 :=
  Nat.lt_of_le_of_lt (Nat.div_le_self a.toNat b.toNat) a.isLt

/-- Settles O32: the product of two bytes fits in the pair, and the flags are the product's. -/
theorem mulWritesWholeProduct : Obligations.MulWritesWholeProduct := by
  refine ⟨rowPlain_mul, fun s => ⟨_, exec_mul s, ?value, ?z, ?n, ?c, ?frame⟩⟩
  case value =>
    rw [State.setMulFlags_reg, State.setMulFlags_reg]
    exact s.setPair_value (byte_mul_lt (s.reg .r1) (s.reg .r0))
  case z => rw [State.flagZ_setMulFlags, decide_eq_true_iff]
  case n => rw [State.flagN_setMulFlags]
  case c => rw [State.flagC_setMulFlags, decide_eq_true_iff]
  case frame => exact (RegisterFrame.setPair s 0x0B _).setMulFlags _

/-- Settles O33: the quotient of two bytes fits in r2, so r3 is 0 and the quotient is 0 exactly when
r2 is. -/
theorem divWritesQuotientOrNothing : Obligations.DivWritesQuotientOrNothing := by
  refine ⟨rowPlain_div, fun s => ⟨exec_div_of_zero s, fun hne => ?_⟩⟩
  have hb : (s.reg .r0).toNat ≠ 0 := fun h => hne (BitVec.eq_of_toNat_eq h)
  obtain ⟨hr2, hr3⟩ := s.setPair_of_lt (byte_div_lt (s.reg .r1) (s.reg .r0))
  refine ⟨_, exec_div_of_ne_zero s hb, ?lower, ?upper, ?high, ?z, ?n, ?frame⟩
  case lower =>
    rw [State.setDivFlags_reg, hr2]
    exact Nat.div_mul_le_self (s.reg .r1).toNat (s.reg .r0).toNat
  case upper =>
    rw [State.setDivFlags_reg, hr2, Nat.mul_comm]
    exact Nat.lt_mul_div_succ (s.reg .r1).toNat (Nat.pos_of_ne_zero hb)
  case high => rw [State.setDivFlags_reg, hr3]
  case z =>
    rw [State.flagZ_setDivFlags, decide_eq_true_iff, State.setDivFlags_reg, ← BitVec.toNat_inj, hr2]
    exact Iff.rfl
  case n => exact State.flagN_setDivFlags _ _
  case frame => exact (RegisterFrame.setPair s 0x03 _).setDivFlags _

end Sys2Proof.Machine
end

section
/-! The rows of class 1 (42_arith_ri.md), and the obligations about its additions, subtractions and
logic operations: an immediate stands where class 0 has the register rs. -/

namespace Sys2Proof.Machine

theorem rowRI_addRI : RowRI 0x4000 .addRI :=
  decodeWord_of_opcode (fun _ => decodeWord_arithRI) fun w h => by rw [decodeArithRI, h]; rfl

theorem rowRI_subRI : RowRI 0x4800 .subRI :=
  decodeWord_of_opcode (fun _ => decodeWord_arithRI) fun w h => by rw [decodeArithRI, h]; rfl

theorem rowRI_xorRI : RowRI 0x5000 .xorRI :=
  decodeWord_of_opcode (fun _ => decodeWord_arithRI) fun w h => by rw [decodeArithRI, h]; rfl

theorem rowRI_andRI : RowRI 0x5800 .andRI :=
  decodeWord_of_opcode (fun _ => decodeWord_arithRI) fun w h => by rw [decodeArithRI, h]; rfl

theorem rowRI_orRI : RowRI 0x6000 .orRI :=
  decodeWord_of_opcode (fun _ => decodeWord_arithRI) fun w h => by rw [decodeArithRI, h]; rfl

theorem rowRI_lsl : RowRI 0x6800 .lsl :=
  decodeWord_of_opcode (fun _ => decodeWord_arithRI) fun w h => by rw [decodeArithRI, h]; rfl

theorem rowRI_lsr : RowRI 0x7000 .lsr :=
  decodeWord_of_opcode (fun _ => decodeWord_arithRI) fun w h => by rw [decodeArithRI, h]; rfl

/-- Settles O34: every word of the row is an ADD, and an ADD is an addition of the immediate into
rd. -/
theorem addImmediate : Obligations.AddImmediate :=
  ⟨rowRI_addRI, fun rd imm s => ⟨_, rfl, setReg_setZNVC_aluAdd s rd imm⟩⟩

/-- Settles O35: every word of the row is a SUB, and a SUB is a subtraction of the immediate from
rd. -/
theorem subImmediate : Obligations.SubImmediate :=
  ⟨rowRI_subRI, fun rd imm s => ⟨_, rfl, setReg_setZNVC_aluSub s rd imm⟩⟩

/-- Settles O36: each of the three writes its bitwise result to rd with the flags of that result. -/
theorem logicImmediate : Obligations.LogicImmediate :=
  ⟨rowRI_xorRI, rowRI_andRI, rowRI_orRI, fun rd imm s =>
    ⟨⟨_, rfl, setReg_setZN s rd (s.reg rd ^^^ imm)⟩,
     ⟨_, rfl, setReg_setZN s rd (s.reg rd &&& imm)⟩,
     ⟨_, rfl, setReg_setZN s rd (s.reg rd ||| imm)⟩⟩⟩

end Sys2Proof.Machine
end

section
/-! What the shifts leave (R125 to R127): their flags are those of a result, and C as well unless the
count is 0; and the obligations about them. Their theorems are named `…_holds`, because `shiftLeft`
and `shiftRight` name the model's results. -/

namespace Sys2Proof.Machine

/-! ### The flags of a shift -/

section
variable (s : State) (res n : Byte) (c : Bool)

@[simp] theorem State.setShiftFlags_reg (q : Reg) : (s.setShiftFlags res n c).reg q = s.reg q := by
  rw [State.setShiftFlags_eq, State.setSr_reg]

/-- A count of 0 leaves C alone (R126, R127). -/
theorem State.setShiftFlags_zero : s.setShiftFlags res 0 c = s.setZN res := if_pos rfl

variable {n} in
/-- A count of 1 or more writes C after Z and N (R126, R127). -/
theorem State.setShiftFlags_of_ne (hn : n ≠ 0) :
    s.setShiftFlags res n c = (s.setZN res).setC c := if_neg hn

@[simp] theorem State.flagC_setC : (s.setC c).flagC = c := by
  rw [State.flagC, State.setC_sr, getLsbD_putBit 3 3 c s.sr (by decide), if_pos rfl]

end

/-- C is neither Z nor N. -/
theorem ResultFlags.setC {res : Byte} {t : State} (h : ResultFlags res t) (c : Bool) :
    ResultFlags res (t.setC c) := by
  have hz : (t.setC c).flagZ = t.flagZ := getLsbD_putBit 3 0 c t.sr (by decide)
  have hn : (t.setC c).flagN = t.flagN := getLsbD_putBit 3 1 c t.sr (by decide)
  rwa [ResultFlags, hz, hn]

/-- The Z and N of a shift are its result's, whatever the count. -/
theorem resultFlags_setShiftFlags (res n : Byte) (c : Bool) (s : State) :
    ResultFlags res (s.setShiftFlags res n c) := by
  have hzn : ResultFlags res (s.setZN res) := resultFlags_setZN res s
  by_cases hn : n = 0
  · rw [hn, State.setShiftFlags_zero]
    exact hzn
  · rw [State.setShiftFlags_of_ne s res c hn]
    exact hzn.setC c

/-- C is inside the mask of a shift exactly when the count is not 0. -/
theorem RegisterFrame.setShiftFlags {s t : State} {written : List Reg} {n : Byte}
    (h : ∀ mask, RegisterFrame s t written mask) (res : Byte) (c : Bool) :
    RegisterFrame s (t.setShiftFlags res n c) written (if n = 0 then 0x03 else 0x0B) := by
  by_cases hn : n = 0
  · rw [if_pos hn, hn, State.setShiftFlags_zero]
    exact (h 0x03).setZ_setN rfl rfl (decide (res = 0)) (bit7 res)
  · rw [if_neg hn, State.setShiftFlags_of_ne t res c hn]
    exact ((h 0x0B).setZ_setN rfl rfl (decide (res = 0)) (bit7 res)).setBit (by decide) rfl c

/-- A shift's result written to rd, with its flags, for either direction. -/
theorem setReg_setShiftFlags (s : State) (rd : Reg) (res n : Byte) (c : Bool) :
    let t := (s.setReg rd res).setShiftFlags res n c
    t.reg rd = res ∧ ResultFlags (t.reg rd) t ∧ (n ≠ 0 → t.flagC = c) ∧
    RegisterFrame s t [rd] (if n = 0 then 0x03 else 0x0B) := by
  intro t
  have hres : t.reg rd = res := by simp only [t, State.setShiftFlags_reg, State.reg_setReg_same]
  refine ⟨hres, ?flags, fun hn => ?carry, ?frame⟩
  case flags => rw [hres]; exact resultFlags_setShiftFlags res n c (s.setReg rd res)
  case carry => simp only [t, State.setShiftFlags_of_ne _ res c hn, State.flagC_setC]
  case frame =>
    exact RegisterFrame.setShiftFlags
      (fun mask => (RegisterFrame.refl s [rd] mask).setReg List.mem_cons_self res) res c

/-! ### The results and the carries -/

section
variable (a n : Byte)

theorem shiftLeft_toNat : (shiftLeft a n).toNat = a.toNat * 2 ^ n.toNat % 256 := by
  rw [shiftLeft, BitVec.toNat_ofNat]

/-- A quotient of a byte is a byte, so nothing is truncated. -/
theorem shiftRight_toNat : (shiftRight a n).toNat = a.toNat / 2 ^ n.toNat := by
  rw [shiftRight, BitVec.toNat_ofNat]
  exact Nat.mod_eq_of_lt (Nat.lt_of_le_of_lt (Nat.div_le_self _ _) a.isLt)

/-- Above 8 the last bit out is one of the zeros shifted in (R125). -/
theorem carryLeft_eq_true_iff :
    carryLeft a n = true ↔ n.toNat ≤ 8 ∧ a.getLsbD (8 - n.toNat) = true := by
  rw [carryLeft, Bool.if_false_right, Bool.and_eq_true, decide_eq_true_iff]

theorem carryRight_eq_true_iff :
    carryRight a n = true ↔ n.toNat ≤ 8 ∧ a.getLsbD (n.toNat - 1) = true := by
  rw [carryRight, Bool.if_false_right, Bool.and_eq_true, decide_eq_true_iff]

end

/-- Settles O37: an LSL writes the shifted value to rd with the flags of a shift, and its carry is
bit 8 - n. -/
theorem shiftLeft_holds : Obligations.ShiftLeft := by
  refine ⟨rowRI_lsl, fun rd n s => ?_⟩
  obtain ⟨hres, hflags, hcarry, hframe⟩ := setReg_setShiftFlags s rd (shiftLeft (s.reg rd) n) n
    (carryLeft (s.reg rd) n)
  refine ⟨_, rfl, ?value, hflags, fun hn => ?carry, hframe⟩
  case value => rw [hres, shiftLeft_toNat]
  case carry => rw [hcarry hn, carryLeft_eq_true_iff]

/-- Settles O38: an LSR writes the shifted value to rd with the flags of a shift, and its carry is
bit n - 1. -/
theorem shiftRight_holds : Obligations.ShiftRight := by
  refine ⟨rowRI_lsr, fun rd n s => ?_⟩
  obtain ⟨hres, hflags, hcarry, hframe⟩ := setReg_setShiftFlags s rd (shiftRight (s.reg rd) n) n
    (carryRight (s.reg rd) n)
  refine ⟨_, rfl, ?value, hflags, fun hn => ?carry, hframe⟩
  case value => rw [hres, shiftRight_toNat]
  case carry => rw [hcarry hn, carryRight_eq_true_iff]

end Sys2Proof.Machine
end

section
/-! The rows of class 2 that do something (43_memory_stack.md R141 to R156). -/

namespace Sys2Proof.Machine

theorem rowRI_ldr : RowRI 0x8000 .ldr :=
  decodeWord_of_opcode (fun _ => decodeWord_memStack) fun w h => by rw [decodeMemStack, h]; rfl

theorem rowRI_str : RowRI 0x8800 .str :=
  decodeWord_of_opcode (fun _ => decodeWord_memStack) fun w h => by rw [decodeMemStack, h]; rfl

theorem rowPlain_pushSR : RowPlain 0x9001 0xF803 .pushSR :=
  decodeWord_of_selector rfl (fun _ => decodeMemStack_push) fun w h => by rw [decodePush, h]; rfl

theorem rowPlain_pushPC : RowPlain 0x9002 0xF803 .pushPC :=
  decodeWord_of_selector rfl (fun _ => decodeMemStack_push) fun w h => by rw [decodePush, h]; rfl

theorem rowSel_popReg : RowSel 0x9800 .popReg :=
  decodeWord_of_selector rfl (fun _ => decodeMemStack_pop) fun w h => by rw [decodePop, h]; rfl

theorem rowPlain_popSR : RowPlain 0x9801 0xF803 .popSR :=
  decodeWord_of_selector rfl (fun _ => decodeMemStack_pop) fun w h => by rw [decodePop, h]; rfl

theorem rowRR_mov : RowRR 0xA000 .mov :=
  decodeWord_of_opcode (fun _ => decodeWord_memStack) fun w h => by rw [decodeMemStack, h]; rfl

theorem rowSel_mvsSR : RowSel 0xA801 .mvsSR :=
  decodeWord_of_selector rfl (fun _ => decodeMemStack_mvs) fun w h => by rw [decodeMvs, h]; rfl

theorem rowSel_mvsPCL : RowSel 0xA802 .mvsPCL :=
  decodeWord_of_selector rfl (fun _ => decodeMemStack_mvs) fun w h => by rw [decodeMvs, h]; rfl

theorem rowSel_mvsPCH : RowSel 0xA803 .mvsPCH :=
  decodeWord_of_selector rfl (fun _ => decodeMemStack_mvs) fun w h => by rw [decodeMvs, h]; rfl

end Sys2Proof.Machine
end

section
/-! The handlers that are one write of a register (R141, R152, R154 to R156) share the frame of that
write and differ only in the byte they write; and the obligations about MOV and MVS. -/

namespace Sys2Proof.Machine

/-- A write of one register is in every frame that lists it. -/
theorem RegisterFrame.setReg_self (s : State) (rd : Reg) (v mask : Byte) :
    RegisterFrame s (s.setReg rd v) [rd] mask :=
  (RegisterFrame.refl s [rd] mask).setReg List.mem_cons_self v

/-- The low byte of a word (R155). -/
theorem lowByte_toNat (w : Word) : (w.extractLsb' 0 8).toNat = w.toNat % 256 := by
  rw [BitVec.extractLsb'_toNat, Nat.shiftRight_zero]

/-- The high byte of a word (R156). -/
theorem highByte_toNat (w : Word) : (w.extractLsb' 8 8).toNat = w.toNat / 256 := by
  have hw : w.toNat < 65536 := w.isLt
  rw [BitVec.extractLsb'_toNat, Nat.shiftRight_eq_div_pow]
  omega

/-- Settles O50: a MOV writes rs to rd. -/
theorem moveCopiesRegister : Obligations.MoveCopiesRegister :=
  ⟨rowRR_mov, fun rd rs s => ⟨_, rfl, s.reg_setReg_same rd (s.reg rs),
    RegisterFrame.setReg_self s rd (s.reg rs) 0x00⟩⟩

/-- Settles O51: each MVS writes its byte, sr or a byte of pc, to rd. -/
theorem moveSpecialRegisters : Obligations.MoveSpecialRegisters := by
  refine ⟨rowSel_mvsSR, rowSel_mvsPCL, rowSel_mvsPCH, fun rd s =>
    ⟨⟨_, rfl, s.reg_setReg_same rd _, RegisterFrame.setReg_self s rd _ 0x00⟩,
     ⟨_, rfl, ?low, RegisterFrame.setReg_self s rd _ 0x00⟩,
     ⟨_, rfl, ?high, RegisterFrame.setReg_self s rd _ 0x00⟩⟩⟩
  case low => rw [State.reg_setReg_same, lowByte_toNat]
  case high => rw [State.reg_setReg_same, highByte_toNat]

end Sys2Proof.Machine
end

section
/-! The effective addresses of LDR and STR (R140), what one write leaves in memory, and the
obligations about the addresses, LDR and STR. -/

namespace Sys2Proof.Machine

section
variable (s : State) (d : Byte)

theorem State.eaLoad_eq :
    s.eaLoad d = 256 * (s.reg .r5).toNat + (s.reg .r4).toNat + d.toNat := rfl

/-- SL chooses the pair of STR (R26, R140). -/
theorem State.eaStore_eq :
    s.eaStore d = (if s.sr.getLsbD 4 = true then 256 * (s.reg .r5).toNat + (s.reg .r4).toNat
      else 256 * (s.reg .r7).toNat + (s.reg .r6).toNat) + d.toNat := rfl

/-- Reached with both bytes of the pair and the displacement at 255: past the last cell, so the
address has to wrap (R140). -/
theorem State.eaLoad_le : s.eaLoad d ≤ 65790 := by
  have hhigh : (s.reg .r5).toNat < 256 := (s.reg .r5).isLt
  have hlow : (s.reg .r4).toNat < 256 := (s.reg .r4).isLt
  have hdisp : d.toNat < 256 := d.isLt
  rw [State.eaLoad_eq]
  omega

end

/-- Settles O41: the pairs and the displacement are added as integers, and only the cell is taken
modulo the size of the buffer. -/
theorem effectiveAddresses : Obligations.EffectiveAddresses := by
  refine fun s d => ⟨s.eaLoad_eq d, s.eaLoad_le d, fun hSL => ?unlinked, fun hSL => ?linked, rfl,
    rfl⟩
  case unlinked => rw [State.eaStore_eq, hSL, if_neg Bool.false_ne_true]
  case linked => rw [State.eaStore_eq, if_pos hSL]

/-- Settles O42: an LDR writes rd, and its byte is read in the state before the write. -/
theorem loadReadsThroughSourcePair : Obligations.LoadReadsThroughSourcePair := by
  refine ⟨rowRI_ldr, fun rd d s => ⟨_, rfl, ?value, RegisterFrame.setReg_self s rd _ 0x00⟩⟩
  case value => rw [State.reg_setReg_same, State.eaLoad_eq]

section
variable (s : State) (a : Nat) (v : Byte)

/-- What a write leaves in memory, seen from any address (R10, R40). -/
theorem State.memWrite_memRead (b : Nat) :
    (s.memWrite a v).memRead b = if phys b = phys a then v else s.memRead b :=
  Memory.read_write (phys a) (phys b) v s.mem

@[simp] theorem State.memWrite_memRead_same : (s.memWrite a v).memRead a = v := by
  rw [State.memWrite_memRead, if_pos rfl]

theorem MemKeptBut.memWrite : MemKeptBut s (s.memWrite a v) a := fun b hb => by
  rw [State.memWrite_memRead, if_neg hb]

end

/-- Settles O43: an STR is one write, at the store address. -/
theorem storeWritesOneCell : Obligations.StoreWritesOneCell :=
  ⟨rowRI_str, fun rd d s => ⟨_, rfl, s.memWrite_memRead_same (s.eaStore d) (s.reg rd),
    s.eaStore_eq d, MemKeptBut.memWrite s (s.eaStore d) (s.reg rd), rfl, rfl, rfl, rfl, rfl⟩⟩

end Sys2Proof.Machine
end

section
/-! One push writes one cell (R143), two pushes write two cells that differ unless sp = 0 (R40), and
the obligations about PUSH SR, PUSH PC and POP rd. -/

namespace Sys2Proof.Machine

section
variable (s : State) (v : Byte)

@[simp] theorem State.push8_memRead_same : (s.push8 v).memRead s.sp.toNat = v := by
  rw [State.push8_memRead, if_pos rfl]

theorem MemKeptBut.push8 : MemKeptBut s (s.push8 v) s.sp.toNat := fun b hb => by
  rw [State.push8_memRead, if_neg hb]

end

/-- Settles O45: PUSH SR is one push, of the whole of sr. -/
theorem pushStatus : Obligations.PushStatus :=
  ⟨rowPlain_pushSR, fun s => ⟨_, rfl, s.push8_memRead_same s.sr, rfl, MemKeptBut.push8 s s.sr, rfl,
    rfl, rfl, rfl⟩⟩

/-- An address and the one below it name two cells, but for 0, whose predecessor 0xFFFF is cell 0
again (R40). -/
theorem phys_pred_ne {a : Word} (h : a ≠ 0) : phys a.toNat ≠ phys (a - 1).toNat := by
  have hpos : a.toNat ≠ 0 := fun e => h (BitVec.eq_of_toNat_eq e)
  have hlt : a.toNat < 65536 := a.isLt
  have hpred : (a - 1).toNat = a.toNat - 1 := by bv_omega
  rw [hpred, phys, phys, Config.memSize]
  omega

/-- Settles O46: PUSH PC is a push of the high byte at sp and then one of the low byte at sp - 1.
The second push keeps the byte of the first, because its cell is another one unless sp = 0. -/
theorem pushPcHighByteFirst : Obligations.PushPcHighByteFirst := by
  refine ⟨rowPlain_pushPC, fun s => ?_⟩
  have hfirst := MemKeptBut.push8 s (s.pc.extractLsb' 8 8)
  have hsecond := MemKeptBut.push8 (s.push8 (s.pc.extractLsb' 8 8)) (s.pc.extractLsb' 0 8)
  refine ⟨_, rfl, (s.push8 _).push8_memRead_same _, fun hsp => ?high, fun b hhigh hlow => ?others,
    ?sp, rfl, rfl, rfl, rfl⟩
  case high => exact (hsecond s.sp.toNat (phys_pred_ne hsp)).trans (s.push8_memRead_same _)
  case others => exact (hsecond b hlow).trans (hfirst b hhigh)
  case sp => exact BitVec.sub_sub s.sp 1 1

/-- Settles O47: POP rd moves sp and then writes rd. -/
theorem popRegister : Obligations.PopRegister := by
  refine ⟨rowSel_popReg, fun rd s => ⟨_, rfl, rfl, ?value, fun r hr => ?others, rfl, rfl, rfl,
    fun _ => rfl⟩⟩
  case value => rw [State.reg_setReg_same, State.popped8_eq]
  case others => exact s.pop8.reg_setReg_ne s.popped8 (List.ne_of_not_mem_cons hr)

end Sys2Proof.Machine
end

section
/-! What a handler may write of sr (10_state.md R25): the arithmetic handlers write their flags, POP
SR writes all of it, and every other handler leaves it alone; and the obligation about POP SR. -/

namespace Sys2Proof.Machine

section
variable {s t : State} {mask : Byte}

/-- A handler that writes no bit of sr keeps the bits outside any mask. -/
theorem SrKept.of_sr_eq (h : t.sr = s.sr) : SrKept s t mask := by rw [SrKept, h]

/-- No bit lies outside the mask of POP SR (R149). -/
theorem srKept_all_bits : SrKept s t 0xFF :=
  (BitVec.and_zero (x := t.sr)).trans (BitVec.and_zero (x := s.sr)).symm

theorem RegisterFrame.srKept {written : List Reg} (h : RegisterFrame s t written mask) :
    SrKept s t mask := by
  obtain ⟨-, hsr, -⟩ := h
  exact hsr

/-- Bits that a mask does not touch are among the bits outside it. -/
theorem compl_and_of_disjoint {bits : Byte} (h : mask &&& bits = 0) : ~~~mask &&& bits = bits := by
  ext j hj
  have hbit : (mask &&& bits)[j] = (0 : Byte)[j] := by rw [h]
  rw [BitVec.getElem_and] at hbit ⊢
  rw [BitVec.getElem_not]
  cases hm : mask[j] with
  | false => rw [Bool.not_false, Bool.true_and]
  | true =>
    have hout : bits[j] = false := by simpa [hm] using hbit
    rw [hout, Bool.and_false]

theorem SrKept.and_eq (h : SrKept s t mask) {bits : Byte} (hbits : mask &&& bits = 0) :
    t.sr &&& bits = s.sr &&& bits := by
  rw [← compl_and_of_disjoint hbits, ← BitVec.and_assoc, ← BitVec.and_assoc, h]

end

/-- A conditional branch writes at most pc (R170). -/
@[simp] theorem State.branchIf_sr (s : State) (taken : Bool) (d : Int) :
    (s.branchIf taken d).sr = s.sr := by
  rw [State.branchIf_eq, State.setPc_sr]

/-- DIV writes Z and N, and nothing of sr when the divisor is 0 (R106). -/
theorem execDiv_srKept {s t : State} (h : execDiv s = .next t) : SrKept s t 0x03 := by
  obtain ⟨-, rfl⟩ | ⟨-, rfl⟩ := (execDiv_next_iff s t).1 h
  · exact SrKept.of_sr_eq rfl
  · exact ((RegisterFrame.setPair s 0x03 _).setDivFlags _).srKept

/-- A handler writes of sr at most the bits that R25 lists for it. -/
theorem exec_srKept {i : Instr} {s t : State} (h : exec i s = .next t) : SrKept s t i.srWrites := by
  cases i with
  | div => exact execDiv_srKept h
  | addRR rd _ | subRR rd _ | addRI rd _ | subRI rd _ =>
    obtain rfl := Host.Outcome.next.inj h
    exact ((RegisterFrame.setReg_self s rd _ 0x0F).setZNVC _).srKept
  | xorRR rd _ | andRR rd _ | orRR rd _ | xorRI rd _ | andRI rd _ | orRI rd _ =>
    obtain rfl := Host.Outcome.next.inj h
    exact ((RegisterFrame.setReg_self s rd _ 0x03).setZ_setN rfl rfl _ _).srKept
  | lsl rd _ | lsr rd _ =>
    obtain rfl := Host.Outcome.next.inj h
    exact (RegisterFrame.setShiftFlags (RegisterFrame.setReg_self s rd _) _ _).srKept
  | mul =>
    obtain rfl := Host.Outcome.next.inj h
    exact ((RegisterFrame.setPair s 0x0B _).setMulFlags _).srKept
  | popSR => exact srKept_all_bits
  | jle _ _ _ | jge _ _ _ | jeq _ _ _ | jlz _ | jgz _ =>
    obtain rfl := Host.Outcome.next.inj h
    exact SrKept.of_sr_eq (s.branchIf_sr _ _)
  | _ =>
    obtain rfl := Host.Outcome.next.inj h
    exact SrKept.of_sr_eq rfl

/-- SL and bits 7-5 are listed for POP SR alone (R25, R27). -/
theorem srWrites_high {i : Instr} (hi : i ≠ .popSR) : i.srWrites &&& 0xF0 = 0 := by
  cases i with
  | popSR => exact absurd rfl hi
  | lsl _ n | lsr _ n => rw [Instr.srWrites]; split <;> rfl
  | _ => rw [Instr.srWrites]; rfl

/-- Settles O48: POP SR moves sp and then writes all of sr, and bits 7-4 are listed for no other
instruction. -/
theorem popStatus : Obligations.PopStatus :=
  ⟨rowPlain_popSR, fun _ => ⟨_, rfl, rfl, rfl, rfl, rfl, rfl, fun _ => rfl⟩,
    fun _ _ _ hi hexec => (exec_srKept hexec).and_eq (srWrites_high hi)⟩

end Sys2Proof.Machine
end

section
/-! The rows of class 3 that transfer control (44_branch.md R171 to R177). -/

namespace Sys2Proof.Machine

/-- JMP's row reads its low byte as the target (R171). -/
theorem decodeWord_jmp_row :
    ∀ w : Word, w &&& 0xF800 = 0xC000 → decodeWord w = .jmp (w.extractLsb' 0 8) :=
  decodeWord_of_opcode (fun _ => decodeWord_branch) fun w h => by rw [decodeBranch, h]; rfl

theorem rowBC_jle : RowBC 0xC800 .jle :=
  decodeWord_of_opcode (fun _ => decodeWord_branch) fun w h => by rw [decodeBranch, h]; rfl

theorem rowBC_jge : RowBC 0xD000 .jge :=
  decodeWord_of_opcode (fun _ => decodeWord_branch) fun w h => by rw [decodeBranch, h]; rfl

theorem rowBC_jeq : RowBC 0xD800 .jeq :=
  decodeWord_of_opcode (fun _ => decodeWord_branch) fun w h => by rw [decodeBranch, h]; rfl

theorem rowBA_jlz : RowBA 0xE000 .jlz :=
  decodeWord_of_opcode (fun _ => decodeWord_branch) fun w h => by rw [decodeBranch, h]; rfl

theorem rowBA_jgz : RowBA 0xE800 .jgz :=
  decodeWord_of_opcode (fun _ => decodeWord_branch) fun w h => by rw [decodeBranch, h]; rfl

theorem rowBA_jrl : RowBA 0xF000 .jrl :=
  decodeWord_of_opcode (fun _ => decodeWord_branch) fun w h => by rw [decodeBranch, h]; rfl

end Sys2Proof.Machine
end

section
/-! A branch is one write of pc (44_branch.md R170): its frame, where it moves pc, and the
obligations about the branches. -/

namespace Sys2Proof.Machine

/-- A write of pc is in the frame of a branch. -/
theorem BranchFrame.setPc (s : State) (w : Word) : BranchFrame s (s.setPc w) :=
  ⟨fun _ _ => rfl, rfl, rfl, rfl, fun _ => rfl⟩

/-- What a taken relative branch writes moves pc by its displacement (R170). -/
theorem MovedBy.setPc_jumpRelative (s : State) (d : Int) :
    MovedBy s (s.setPc (s.jumpRelative d)) d :=
  s.jumpRelative_toNat d

/-- A fetch reads memory alone, so moving pc does not change the word at an address. -/
@[simp] theorem State.setPc_fetchWord (s : State) (w : Word) (a : Nat) :
    (s.setPc w).fetchWord a = s.fetchWord a := rfl

/-! ### JMP (R171) -/

/-- The address that JMP leaves for the prefetch. -/
theorem jumpAbsolute_toNat_eq (a : Byte) : (jumpAbsolute a).toNat = (a.toNat + 65534) % 65536 := by
  have h := jumpAbsolute_toNat a
  omega

/-- The advance at the end of the step undoes the 2 that JMP takes off. -/
theorem jumpAbsolute_add_two (a : Byte) : jumpAbsolute a + 2 = a.setWidth 16 :=
  BitVec.sub_add_cancel (a.setWidth 16) 2

/-- Settles O54: JMP writes t - 2 to pc, which is where the step fetches, and the advance makes it
t. -/
theorem jumpLandsOnAbsoluteTarget : Obligations.JumpLandsOnAbsoluteTarget := by
  refine ⟨decodeWord_jmp_row,
    fun a s => ⟨_, rfl, jumpAbsolute_toNat a, BranchFrame.setPc s (jumpAbsolute a)⟩,
    fun a s hdec => ?step⟩
  case step =>
    have hexec : exec (decodeWord s.ir) s = .next (s.setPc (jumpAbsolute a)) := by rw [hdec]; rfl
    refine ⟨_, step_of_exec hexec, ?pc, ?ir⟩
    case pc =>
      rw [State.prefetch_pc, State.setPc_pc, jumpAbsolute_add_two,
        BitVec.toNat_setWidth_of_le (by decide)]
    case ir =>
      rw [State.prefetch_ir, State.setPc_pc, State.setPc_fetchWord, jumpAbsolute_toNat_eq]

/-! ### JRL (R172) -/

theorem State.jumpRelative_zero (s : State) : s.jumpRelative 0 = s.pc - 2 :=
  congrArg (· - 2) (BitVec.add_zero s.pc)

/-- Fetching the latched word again from where it came leaves the whole state as it was. -/
theorem State.prefetch_setPc_sub_two (s : State) (h : s.ir = s.fetchWord (s.pc - 2).toNat) :
    (s.setPc (s.pc - 2)).prefetch = s := by
  rw [State.prefetch_eq, State.setPc_pc, State.setPc_fetchWord, ← h, BitVec.sub_add_cancel]
  rfl

/-- Settles O55: JRL always writes pc + d - 2; with d = 0 the step fetches the JRL itself again. -/
theorem relativeJump : Obligations.RelativeJump := by
  refine ⟨rowBA_jrl,
    fun d s => ⟨_, rfl, MovedBy.setPc_jumpRelative s d, BranchFrame.setPc s (s.jumpRelative d)⟩,
    fun s hdec hir => ?selfLoop⟩
  case selfLoop =>
    have hexec : exec (decodeWord s.ir) s = .next (s.setPc (s.pc - 2)) := by
      rw [hdec, ← s.jumpRelative_zero]; rfl
    rw [step_of_exec hexec, s.prefetch_setPc_sub_two hir]

/-! ### The conditional branches (R173 to R177) -/

/-- Taken or not, a conditional branch writes at most pc. -/
theorem BranchFrame.branchIf (s : State) (taken : Bool) (d : Int) :
    BranchFrame s (s.branchIf taken d) := by
  rw [State.branchIf_eq]
  exact BranchFrame.setPc s _

/-- A conditional branch whose test decides `P` moves pc when `P` holds, and else leaves it. -/
theorem State.branchIf_pc_of_iff (s : State) (d : Int) {taken : Bool} {P : Prop} [Decidable P]
    (h : taken = true ↔ P) :
    if P then MovedBy s (s.branchIf taken d) d else (s.branchIf taken d).pc = s.pc := by
  by_cases hP : P
  · rw [if_pos hP, h.2 hP, State.branchIf_true]
    exact MovedBy.setPc_jumpRelative s d
  · rw [if_neg hP, Bool.eq_false_iff.2 (mt h.1 hP), State.branchIf_false]

/-- Settles O56: each comparison is the test of its branch. -/
theorem compareBranches : Obligations.CompareBranches :=
  ⟨rowBC_jle, rowBC_jge, rowBC_jeq, fun _ _ d s =>
    ⟨⟨_, rfl, BranchFrame.branchIf s _ d, s.branchIf_pc_of_iff d decide_eq_true_iff⟩,
     ⟨_, rfl, BranchFrame.branchIf s _ d, s.branchIf_pc_of_iff d decide_eq_true_iff⟩,
     ⟨_, rfl, BranchFrame.branchIf s _ d, s.branchIf_pc_of_iff d decide_eq_true_iff⟩⟩⟩

/-- JGZ's test is that neither N nor Z is set (R177). -/
theorem State.not_flagN_and_not_flagZ_iff (s : State) :
    (!s.flagN && !s.flagZ) = true ↔ s.sr.getLsbD 1 = false ∧ s.sr.getLsbD 0 = false := by
  rw [Bool.and_eq_true, Bool.not_eq_true', Bool.not_eq_true', State.flagN, State.flagZ]

/-- Settles O57: JLZ tests N, and JGZ tests N and Z. -/
theorem flagBranches : Obligations.FlagBranches :=
  ⟨rowBA_jlz, rowBA_jgz, fun d s =>
    ⟨⟨_, rfl, BranchFrame.branchIf s _ d, s.branchIf_pc_of_iff d Iff.rfl⟩,
     ⟨_, rfl, BranchFrame.branchIf s _ d, s.branchIf_pc_of_iff d s.not_flagN_and_not_flagZ_iff⟩⟩⟩

end Sys2Proof.Machine
end

section
/-! Choices between two values by propositions that say the same. -/

namespace Sys2Proof

theorem ite_of_iff {α : Type} {p q : Prop} [Decidable p] [Decidable q] (h : p ↔ q) (x y : α) :
    (if p then x else y) = if q then x else y :=
  ite_congr (propext h) (fun _ => rfl) (fun _ => rfl)

end Sys2Proof
end

section
/-! The rows of class 2 that the sections above do not name: PUSH rd and POP PC (43_memory_stack.md
R144, R150). -/

namespace Sys2Proof.Machine

theorem rowSel_pushReg : RowSel 0x9000 .pushReg :=
  decodeWord_of_selector rfl (fun _ => decodeMemStack_push) fun w h => by rw [decodePush, h]; rfl

theorem rowPlain_popPC : RowPlain 0x9802 0xF803 .popPC :=
  decodeWord_of_selector rfl (fun _ => decodeMemStack_pop) fun w h => by rw [decodePop, h]; rfl

end Sys2Proof.Machine
end

section
/-! The fields of a word (30_encoding.md R62) against the encoder's placement of them: a field put
back where it was read is the word under the field's mask, and a placed field is read back in its
own place and as zero in every other. -/

namespace Sys2Proof

theorem Reg.toBits_ofBits (b : BitVec 3) : (Reg.ofBits b).toBits = b := by
  revert b; decide

theorem Reg.ofBits_toBits (r : Reg) : Reg.ofBits r.toBits = r := by
  cases r <;> rfl

theorem fitsD8_iff (d : Int) : fitsD8 d = true ↔ -128 ≤ d ∧ d ≤ 127 := by
  rw [fitsD8, Bool.and_eq_true, decide_eq_true_iff, decide_eq_true_iff]

theorem fitsD5_iff (d : Int) : fitsD5 d = true ↔ -16 ≤ d ∧ d ≤ 15 := by
  rw [fitsD5, Bool.and_eq_true, decide_eq_true_iff, decide_eq_true_iff]

/-! ### From a word to its fields and back -/

section
variable (w : Word)

/-- Putting a field back keeps exactly the bits of the field. -/
theorem extract_put_back (start len : Nat) :
    (w.extractLsb' start len).setWidth 16 <<< start =
      w &&& (BitVec.allOnes len).setWidth 16 <<< start := by
  apply BitVec.eq_of_getLsbD_eq
  intro i hi
  by_cases hs : i < start
  · simp [hs]
  · have hplace : start + (i - start) = i := by omega
    simp [hi, hs, hplace, BitVec.getLsbD_extractLsb', Bool.and_comm]

theorem putRd_fieldRd : putRd (fieldRd w) = w &&& 0x0700 := by
  rw [putRd, fieldRd, Reg.toBits_ofBits]
  exact extract_put_back w 8 3

theorem putRs_fieldRs : putRs (fieldRs w) = w &&& 0x00E0 := by
  rw [putRs, fieldRs, Reg.toBits_ofBits]
  exact extract_put_back w 5 3

theorem putImm8_fieldImm8 : putImm8 (fieldImm8 w) = w &&& 0x00FF := by
  rw [putImm8, fieldImm8, ← BitVec.shiftLeft_zero ((w.extractLsb' 0 8).setWidth 16)]
  exact extract_put_back w 0 8

theorem putD8_fieldD8 : putD8 (fieldD8 w) = w &&& 0x00FF := by
  rw [putD8, fieldD8, BitVec.ofInt_toInt]
  exact putImm8_fieldImm8 w

theorem putD5_fieldD5 : putD5 (fieldD5 w) = w &&& 0x001F := by
  rw [putD5, fieldD5, BitVec.ofInt_toInt,
    ← BitVec.shiftLeft_zero ((w.extractLsb' 0 5).setWidth 16)]
  exact extract_put_back w 0 5

theorem fitsD8_fieldD8 : fitsD8 (fieldD8 w) = true := by
  have hlo := BitVec.le_toInt (w.extractLsb' 0 8)
  have hhi := BitVec.toInt_lt (x := w.extractLsb' 0 8)
  rw [fitsD8_iff, fieldD8]
  omega

theorem fitsD5_fieldD5 : fitsD5 (fieldD5 w) = true := by
  have hlo := BitVec.le_toInt (w.extractLsb' 0 5)
  have hhi := BitVec.toInt_lt (x := w.extractLsb' 0 5)
  rw [fitsD5_iff, fieldD5]
  omega

end

/-! ### From an operand to its field and back -/

section
variable (r : Reg) (b : Byte) (d : Int)

theorem putRd_rd : (putRd r).extractLsb' 8 3 = r.toBits := by cases r <;> rfl
theorem putRd_rs : (putRd r).extractLsb' 5 3 = 0#3 := by cases r <;> rfl
theorem putRd_imm8 : (putRd r).extractLsb' 0 8 = 0#8 := by cases r <;> rfl
theorem putRd_d5 : (putRd r).extractLsb' 0 5 = 0#5 := by cases r <;> rfl

theorem putRs_rd : (putRs r).extractLsb' 8 3 = 0#3 := by cases r <;> rfl
theorem putRs_rs : (putRs r).extractLsb' 5 3 = r.toBits := by cases r <;> rfl
theorem putRs_d5 : (putRs r).extractLsb' 0 5 = 0#5 := by cases r <;> rfl

theorem putImm8_rd : (putImm8 b).extractLsb' 8 3 = 0#3 := by revert b; decide
theorem putImm8_imm8 : (putImm8 b).extractLsb' 0 8 = b := by revert b; decide

theorem putD5_rd : (putD5 d).extractLsb' 8 3 = 0#3 := by
  rw [putD5]; generalize BitVec.ofInt 5 d = f; revert f; decide
theorem putD5_rs : (putD5 d).extractLsb' 5 3 = 0#3 := by
  rw [putD5]; generalize BitVec.ofInt 5 d = f; revert f; decide
theorem putD5_d5 : (putD5 d).extractLsb' 0 5 = BitVec.ofInt 5 d := by
  rw [putD5]; generalize BitVec.ofInt 5 d = f; revert f; decide

variable {d}

/-- An 8-bit field gives back a displacement that fits it (R64). -/
theorem toInt_ofInt_of_fitsD8 (h : fitsD8 d = true) : (BitVec.ofInt 8 d).toInt = d := by
  obtain ⟨hlo, hhi⟩ := (fitsD8_iff d).1 h
  rw [BitVec.toInt_ofInt]
  exact Int.bmod_eq_of_le (by omega) (by omega)

/-- A 5-bit field gives back a displacement that fits it (R64). -/
theorem toInt_ofInt_of_fitsD5 (h : fitsD5 d = true) : (BitVec.ofInt 5 d).toInt = d := by
  obtain ⟨hlo, hhi⟩ := (fitsD5_iff d).1 h
  rw [BitVec.toInt_ofInt]
  exact Int.bmod_eq_of_le (by omega) (by omega)

end

end Sys2Proof
end

section
/-! Decoding a word that agrees with an instruction's encoding on the bits its format reads gives
that instruction back (30_encoding.md R63, R71): one lemma per format. -/

namespace Sys2Proof.Machine

/-! ### Bits and fields under the mask of a format -/

section
variable {w u e : Word}

/-- A mask inside the bits that a format reads. -/
theorem and_mask_of_used (h : w &&& u = e) {m : Word} (hm : u &&& m = m) : w &&& m = e &&& m := by
  rw [← h, BitVec.and_assoc, hm]

/-- A field whose bits a format reads. -/
theorem field_of_used (h : w &&& u = e) {start len : Nat}
    (hu : u.extractLsb' start len = BitVec.allOnes len) :
    w.extractLsb' start len = e.extractLsb' start len := by
  rw [← h, BitVec.extractLsb'_and, hu, BitVec.and_allOnes]

/-- A pattern is zero in every field outside its mask. -/
theorem pattern_field {p m : Word} (hp : p &&& m = p) {start len : Nat}
    (hm : m.extractLsb' start len = 0#len) : p.extractLsb' start len = 0#len := by
  rw [← hp, BitVec.extractLsb'_and, hm, BitVec.and_zero]

end

/-! ### One lemma per format -/

section
variable {w p : Word} {rd rs : Reg} {b : Byte} {d : Int}

theorem decodeWord_of_RR {f : Reg → Reg → Instr} (hrow : RowRR p f) (hp : p &&& 0xF800 = p)
    (h : w &&& 0xFFE0 = p ||| putRd rd ||| putRs rs) : decodeWord w = f rd rs := by
  have hop : w &&& 0xF800 = p := by
    rw [and_mask_of_used h rfl, Laws.and_put _ _ _ (Laws.putRs_opcode rs),
      Laws.and_put _ _ _ (Laws.putRd_opcode rd), hp]
  have hrd : w.extractLsb' 8 3 = rd.toBits := by
    rw [field_of_used h rfl, BitVec.extractLsb'_or, BitVec.extractLsb'_or, pattern_field hp rfl,
      putRd_rd, putRs_rd, BitVec.zero_or,
      BitVec.or_zero]
  have hrs : w.extractLsb' 5 3 = rs.toBits := by
    rw [field_of_used h rfl, BitVec.extractLsb'_or, BitVec.extractLsb'_or, pattern_field hp rfl,
      putRd_rs, putRs_rs, BitVec.zero_or, BitVec.zero_or]
  rw [hrow w hop, hrd, hrs, Reg.ofBits_toBits, Reg.ofBits_toBits]

theorem decodeWord_of_RI {f : Reg → Byte → Instr} (hrow : RowRI p f) (hp : p &&& 0xF800 = p)
    (h : w &&& 0xFFFF = p ||| putRd rd ||| putImm8 b) : decodeWord w = f rd b := by
  have hop : w &&& 0xF800 = p := by
    rw [and_mask_of_used h rfl, Laws.and_put _ _ _ (Laws.putImm8_opcode b),
      Laws.and_put _ _ _ (Laws.putRd_opcode rd), hp]
  have hrd : w.extractLsb' 8 3 = rd.toBits := by
    rw [field_of_used h rfl, BitVec.extractLsb'_or, BitVec.extractLsb'_or, pattern_field hp rfl,
      putRd_rd, putImm8_rd, BitVec.zero_or,
      BitVec.or_zero]
  have himm : w.extractLsb' 0 8 = b := by
    rw [field_of_used h rfl, BitVec.extractLsb'_or, BitVec.extractLsb'_or, pattern_field hp rfl,
      putRd_imm8, putImm8_imm8, BitVec.zero_or, BitVec.zero_or]
  rw [hrow w hop, hrd, himm, Reg.ofBits_toBits]

theorem decodeWord_of_Sel {f : Reg → Instr} (hrow : RowSel p f) (hp : p &&& 0xF803 = p)
    (h : w &&& 0xFF03 = p ||| putRd rd) : decodeWord w = f rd := by
  have hop : w &&& 0xF803 = p := by
    rw [and_mask_of_used h rfl, Laws.and_put _ _ _ (Laws.putRd_opcode_sel rd), hp]
  have hrd : w.extractLsb' 8 3 = rd.toBits := by
    rw [field_of_used h rfl, BitVec.extractLsb'_or, pattern_field hp rfl, putRd_rd, BitVec.zero_or]
  rw [hrow w hop, hrd, Reg.ofBits_toBits]

/-- The low byte of a word of format BA. -/
theorem opcode_and_low_of_BA (hp : p &&& 0xF800 = p) (h : w &&& 0xF8FF = p ||| putImm8 b) :
    w &&& 0xF800 = p ∧ w.extractLsb' 0 8 = b := by
  refine ⟨?opcode, ?low⟩
  case opcode => rw [and_mask_of_used h rfl, Laws.and_put _ _ _ (Laws.putImm8_opcode b), hp]
  case low =>
    rw [field_of_used h rfl, BitVec.extractLsb'_or, pattern_field hp rfl, putImm8_imm8,
      BitVec.zero_or]

theorem decodeWord_of_BA {f : Int → Instr} (hrow : RowBA p f) (hp : p &&& 0xF800 = p)
    (hd : fitsD8 d = true) (h : w &&& 0xF8FF = p ||| putD8 d) : decodeWord w = f d := by
  obtain ⟨hop, hlow⟩ := opcode_and_low_of_BA hp h
  rw [hrow w hop, hlow, toInt_ofInt_of_fitsD8 hd]

theorem decodeWord_of_BC {f : Reg → Reg → Int → Instr} (hrow : RowBC p f) (hp : p &&& 0xF800 = p)
    (hd : fitsD5 d = true) (h : w &&& 0xFFFF = p ||| putRd rd ||| putRs rs ||| putD5 d) :
    decodeWord w = f rd rs d := by
  have hop : w &&& 0xF800 = p := by
    rw [and_mask_of_used h rfl, Laws.and_put _ _ _ (Laws.putD5_opcode d),
      Laws.and_put _ _ _ (Laws.putRs_opcode rs), Laws.and_put _ _ _ (Laws.putRd_opcode rd), hp]
  have hrd : w.extractLsb' 8 3 = rd.toBits := by
    rw [field_of_used h rfl, BitVec.extractLsb'_or, BitVec.extractLsb'_or, BitVec.extractLsb'_or,
      pattern_field hp rfl, putRd_rd, putRs_rd, putD5_rd, BitVec.zero_or,
      BitVec.or_zero, BitVec.or_zero]
  have hrs : w.extractLsb' 5 3 = rs.toBits := by
    rw [field_of_used h rfl, BitVec.extractLsb'_or, BitVec.extractLsb'_or, BitVec.extractLsb'_or,
      pattern_field hp rfl, putRd_rs, putRs_rs, putD5_rs, BitVec.zero_or,
      BitVec.zero_or, BitVec.or_zero]
  have hdisp : w.extractLsb' 0 5 = BitVec.ofInt 5 d := by
    rw [field_of_used h rfl, BitVec.extractLsb'_or, BitVec.extractLsb'_or, BitVec.extractLsb'_or,
      pattern_field hp rfl, putRd_d5, putRs_d5, putD5_d5, BitVec.zero_or,
      BitVec.zero_or, BitVec.zero_or]
  rw [hrow w hop, hrd, hrs, hdisp, Reg.ofBits_toBits, Reg.ofBits_toBits, toInt_ofInt_of_fitsD5 hd]

end

/-! ### Every instruction -/

/-- A word that agrees with an encoding on the bits that the format reads decodes to the instruction
encoded (R63, R71). -/
theorem decodeWord_of_used {i : Instr} (hwf : WellFormed i) {w : Word}
    (h : w &&& i.usedBits = encode i) : decodeWord w = i := by
  cases i with
  | addRR rd rs => exact decodeWord_of_RR rowRR_addRR rfl h
  | subRR rd rs => exact decodeWord_of_RR rowRR_subRR rfl h
  | xorRR rd rs => exact decodeWord_of_RR rowRR_xorRR rfl h
  | andRR rd rs => exact decodeWord_of_RR rowRR_andRR rfl h
  | orRR rd rs => exact decodeWord_of_RR rowRR_orRR rfl h
  | mul => exact rowPlain_mul w h
  | div => exact rowPlain_div w h
  | nopRR => exact rowPlain_nopRR w h
  | addRI rd imm => exact decodeWord_of_RI rowRI_addRI rfl h
  | subRI rd imm => exact decodeWord_of_RI rowRI_subRI rfl h
  | xorRI rd imm => exact decodeWord_of_RI rowRI_xorRI rfl h
  | andRI rd imm => exact decodeWord_of_RI rowRI_andRI rfl h
  | orRI rd imm => exact decodeWord_of_RI rowRI_orRI rfl h
  | lsl rd n => exact decodeWord_of_RI rowRI_lsl rfl h
  | lsr rd n => exact decodeWord_of_RI rowRI_lsr rfl h
  | nopRI => exact rowPlain_nopRI w h
  | ldr rd disp => exact decodeWord_of_RI rowRI_ldr rfl h
  | str rd disp => exact decodeWord_of_RI rowRI_str rfl h
  | pushReg rd => exact decodeWord_of_Sel rowSel_pushReg rfl h
  | pushSR => exact rowPlain_pushSR w h
  | pushPC => exact rowPlain_pushPC w h
  | pushNop => exact rowPlain_pushNop w h
  | popReg rd => exact decodeWord_of_Sel rowSel_popReg rfl h
  | popSR => exact rowPlain_popSR w h
  | popPC => exact rowPlain_popPC w h
  | popNop => exact rowPlain_popNop w h
  | mov rd rs => exact decodeWord_of_RR rowRR_mov rfl h
  | mvsNop => exact rowPlain_mvsNop w h
  | mvsSR rd => exact decodeWord_of_Sel rowSel_mvsSR rfl h
  | mvsPCL rd => exact decodeWord_of_Sel rowSel_mvsPCL rfl h
  | mvsPCH rd => exact decodeWord_of_Sel rowSel_mvsPCH rfl h
  | nopMem6 => exact rowPlain_nopMem6 w h
  | nopMem7 => exact rowPlain_nopMem7 w h
  | jmp t =>
    obtain ⟨hop, hlow⟩ := opcode_and_low_of_BA (p := 0xC000) rfl h
    rw [decodeWord_jmp_row w hop, hlow]
  | jle rd rs d => exact decodeWord_of_BC rowBC_jle rfl hwf h
  | jge rd rs d => exact decodeWord_of_BC rowBC_jge rfl hwf h
  | jeq rd rs d => exact decodeWord_of_BC rowBC_jeq rfl hwf h
  | jlz d => exact decodeWord_of_BA rowBA_jlz rfl hwf h
  | jgz d => exact decodeWord_of_BA rowBA_jgz rfl hwf h
  | jrl d => exact decodeWord_of_BA rowBA_jrl rfl hwf h
  | nopBranch => exact rowPlain_nopBranch w h

end Sys2Proof.Machine
end

section
/-! Every word against the instruction it decodes to (30_encoding.md R63, R66 to R71): the word lies
in the row of that instruction, and encoding the instruction clears the ignored bits and keeps all
others; and the obligations about the decoder and the encoder. -/

namespace Sys2Proof

/-! ### The opcode fields put back where they were read -/

/-- A class placed in bits 15-14 (R66). -/
def putCls (c : Cls) : Word :=
  match c with
  | .arithRR => 0x0000
  | .arithRI => 0x4000
  | .memStack => 0x8000
  | .branch => 0xC000

/-- A sub-opcode placed in bits 13-11 (R67). -/
def putSub (b : Sub) : Word :=
  match b with
  | .s0 => 0x0000
  | .s1 => 0x0800
  | .s2 => 0x1000
  | .s3 => 0x1800
  | .s4 => 0x2000
  | .s5 => 0x2800
  | .s6 => 0x3000
  | .s7 => 0x3800

/-- A selector placed in bits 1-0 (R68). -/
def putSel (l : Sel) : Word :=
  match l with
  | .sel0 => 0x0000
  | .sel1 => 0x0001
  | .sel2 => 0x0002
  | .sel3 => 0x0003

section
variable (w : Word)

theorem putCls_fieldCls : putCls (fieldCls w) = w &&& 0xC000 := by
  have h1 : w.getLsbD 15 = (w.extractLsb' 14 2).getLsbD 1 := by simp
  have h0 : w.getLsbD 14 = (w.extractLsb' 14 2).getLsbD 0 := by simp
  rw [fieldCls, h1, h0]
  refine Eq.trans ?_ (extract_put_back w 14 2)
  generalize w.extractLsb' 14 2 = b
  revert b; decide

theorem putSub_fieldSub : putSub (fieldSub w) = w &&& 0x3800 := by
  have h2 : w.getLsbD 13 = (w.extractLsb' 11 3).getLsbD 2 := by simp
  have h1 : w.getLsbD 12 = (w.extractLsb' 11 3).getLsbD 1 := by simp
  have h0 : w.getLsbD 11 = (w.extractLsb' 11 3).getLsbD 0 := by simp
  rw [fieldSub, h2, h1, h0]
  refine Eq.trans ?_ (extract_put_back w 11 3)
  generalize w.extractLsb' 11 3 = b
  revert b; decide

theorem putSel_fieldSel : putSel (fieldSel w) = w &&& 0x0003 := by
  have h1 : w.getLsbD 1 = (w.extractLsb' 0 2).getLsbD 1 := by simp
  have h0 : w.getLsbD 0 = (w.extractLsb' 0 2).getLsbD 0 := by simp
  rw [fieldSel, h1, h0]
  refine Eq.trans ?_ (extract_put_back w 0 2)
  generalize w.extractLsb' 0 2 = b
  revert b; decide

end

section
variable {w : Word} {c : Cls} {b : Sub} {l : Sel}

/-- The class and the sub-opcode are all of the opcode bits. -/
theorem opcode_of_fields (hc : fieldCls w = c) (hb : fieldSub w = b) :
    w &&& 0xF800 = putCls c ||| putSub b := by
  rw [← hc, ← hb, putCls_fieldCls, putSub_fieldSub, ← BitVec.and_or_distrib_left]
  rfl

/-- With a selector the opcode has two bits more. -/
theorem opcode_sel_of_fields (hc : fieldCls w = c) (hb : fieldSub w = b) (hl : fieldSel w = l) :
    w &&& 0xF803 = putCls c ||| putSub b ||| putSel l := by
  rw [← opcode_of_fields hc hb, ← hl, putSel_fieldSel, ← BitVec.and_or_distrib_left]
  rfl

end

/-! ### What decoding a word has to give -/

/-- The word lies in the row of a well-formed instruction, whose encoding is the word with the bits
that the format ignores cleared. -/
def EncodedBy (w : Word) (i : Instr) : Prop :=
  WellFormed i ∧ w &&& i.row.mask = i.row.pattern ∧ encode i = w &&& i.usedBits

section
variable {w p : Word}

theorem put_fields_RR (h : w &&& 0xF800 = p) :
    p ||| putRd (fieldRd w) ||| putRs (fieldRs w) = w &&& 0xFFE0 := by
  rw [← h, putRd_fieldRd, putRs_fieldRs, ← BitVec.and_or_distrib_left,
    ← BitVec.and_or_distrib_left]
  rfl

theorem put_fields_RI (h : w &&& 0xF800 = p) :
    p ||| putRd (fieldRd w) ||| putImm8 (fieldImm8 w) = w &&& 0xFFFF := by
  rw [← h, putRd_fieldRd, putImm8_fieldImm8, ← BitVec.and_or_distrib_left,
    ← BitVec.and_or_distrib_left]
  rfl

theorem put_fields_Sel (h : w &&& 0xF803 = p) : p ||| putRd (fieldRd w) = w &&& 0xFF03 := by
  rw [← h, putRd_fieldRd, ← BitVec.and_or_distrib_left]
  rfl

theorem put_fields_jmp (h : w &&& 0xF800 = p) : p ||| putImm8 (fieldImm8 w) = w &&& 0xF8FF := by
  rw [← h, putImm8_fieldImm8, ← BitVec.and_or_distrib_left]
  rfl

theorem put_fields_BA (h : w &&& 0xF800 = p) : p ||| putD8 (fieldD8 w) = w &&& 0xF8FF := by
  rw [← h, putD8_fieldD8, ← BitVec.and_or_distrib_left]
  rfl

theorem put_fields_BC (h : w &&& 0xF800 = p) :
    p ||| putRd (fieldRd w) ||| putRs (fieldRs w) ||| putD5 (fieldD5 w) = w &&& 0xFFFF := by
  rw [put_fields_RR h, putD5_fieldD5, ← BitVec.and_or_distrib_left]
  rfl

end

/-! ### The tables, entry by entry -/

section
variable {w : Word}

theorem encodedBy_decodeArithRR (hc : fieldCls w = .arithRR) : EncodedBy w (decodeArithRR w) := by
  rw [decodeArithRR]
  cases hb : fieldSub w with
  | s0 | s1 | s2 | s3 | s4 =>
    have hop := opcode_of_fields hc hb
    exact ⟨rfl, hop, put_fields_RR hop⟩
  | s5 | s6 | s7 =>
    have hop := opcode_of_fields hc hb
    exact ⟨rfl, hop, hop.symm⟩

theorem encodedBy_decodeArithRI (hc : fieldCls w = .arithRI) : EncodedBy w (decodeArithRI w) := by
  rw [decodeArithRI]
  cases hb : fieldSub w with
  | s0 | s1 | s2 | s3 | s4 | s5 | s6 =>
    have hop := opcode_of_fields hc hb
    exact ⟨rfl, hop, put_fields_RI hop⟩
  | s7 =>
    have hop := opcode_of_fields hc hb
    exact ⟨rfl, hop, hop.symm⟩

theorem encodedBy_decodePush (hc : fieldCls w = .memStack) (hb : fieldSub w = .s2) :
    EncodedBy w (decodePush w) := by
  rw [decodePush]
  cases hl : fieldSel w with
  | sel0 =>
    have hop := opcode_sel_of_fields hc hb hl
    exact ⟨rfl, hop, put_fields_Sel hop⟩
  | sel1 | sel2 | sel3 =>
    have hop := opcode_sel_of_fields hc hb hl
    exact ⟨rfl, hop, hop.symm⟩

theorem encodedBy_decodePop (hc : fieldCls w = .memStack) (hb : fieldSub w = .s3) :
    EncodedBy w (decodePop w) := by
  rw [decodePop]
  cases hl : fieldSel w with
  | sel0 =>
    have hop := opcode_sel_of_fields hc hb hl
    exact ⟨rfl, hop, put_fields_Sel hop⟩
  | sel1 | sel2 | sel3 =>
    have hop := opcode_sel_of_fields hc hb hl
    exact ⟨rfl, hop, hop.symm⟩

theorem encodedBy_decodeMvs (hc : fieldCls w = .memStack) (hb : fieldSub w = .s5) :
    EncodedBy w (decodeMvs w) := by
  rw [decodeMvs]
  cases hl : fieldSel w with
  | sel0 =>
    have hop := opcode_sel_of_fields hc hb hl
    exact ⟨rfl, hop, hop.symm⟩
  | sel1 | sel2 | sel3 =>
    have hop := opcode_sel_of_fields hc hb hl
    exact ⟨rfl, hop, put_fields_Sel hop⟩

theorem encodedBy_decodeMemStack (hc : fieldCls w = .memStack) :
    EncodedBy w (decodeMemStack w) := by
  rw [decodeMemStack]
  cases hb : fieldSub w with
  | s0 | s1 =>
    have hop := opcode_of_fields hc hb
    exact ⟨rfl, hop, put_fields_RI hop⟩
  | s2 => exact encodedBy_decodePush hc hb
  | s3 => exact encodedBy_decodePop hc hb
  | s4 =>
    have hop := opcode_of_fields hc hb
    exact ⟨rfl, hop, put_fields_RR hop⟩
  | s5 => exact encodedBy_decodeMvs hc hb
  | s6 | s7 =>
    have hop := opcode_of_fields hc hb
    exact ⟨rfl, hop, hop.symm⟩

theorem encodedBy_decodeBranch (hc : fieldCls w = .branch) : EncodedBy w (decodeBranch w) := by
  rw [decodeBranch]
  cases hb : fieldSub w with
  | s0 =>
    have hop := opcode_of_fields hc hb
    exact ⟨rfl, hop, put_fields_jmp hop⟩
  | s1 | s2 | s3 =>
    have hop := opcode_of_fields hc hb
    exact ⟨fitsD5_fieldD5 w, hop, put_fields_BC hop⟩
  | s4 | s5 | s6 =>
    have hop := opcode_of_fields hc hb
    exact ⟨fitsD8_fieldD8 w, hop, put_fields_BA hop⟩
  | s7 =>
    have hop := opcode_of_fields hc hb
    exact ⟨rfl, hop, hop.symm⟩

end

/-- Every word encodes the instruction it decodes to, up to the bits that the format ignores. -/
theorem encodedBy_decodeWord (w : Word) : EncodedBy w (decodeWord w) := by
  rw [decodeWord]
  cases hc : fieldCls w with
  | arithRR => exact encodedBy_decodeArithRR hc
  | arithRI => exact encodedBy_decodeArithRI hc
  | memStack => exact encodedBy_decodeMemStack hc
  | branch => exact encodedBy_decodeBranch hc

/-! ### An encoding holds no ignored bit (R72) -/

theorem putRd_inside_RR (r : Reg) : putRd r &&& 0xFFE0 = putRd r := by cases r <;> rfl
theorem putRs_inside_RR (r : Reg) : putRs r &&& 0xFFE0 = putRs r := by cases r <;> rfl
theorem putRd_inside_Sel (r : Reg) : putRd r &&& 0xFF03 = putRd r := by cases r <;> rfl
theorem putImm8_inside_BA (b : Byte) : putImm8 b &&& 0xF8FF = putImm8 b := by revert b; decide

/-- What is put together from parts inside a mask is inside it. -/
theorem or_inside {x y m : Word} (hx : x &&& m = x) (hy : y &&& m = y) :
    (x ||| y) &&& m = x ||| y := by
  rw [BitVec.and_or_distrib_right, hx, hy]

theorem encode_and_usedBits (i : Instr) : encode i &&& i.usedBits = encode i := by
  cases i with
  | addRR rd rs | subRR rd rs | xorRR rd rs | andRR rd rs | orRR rd rs | mov rd rs =>
    exact or_inside (m := 0xFFE0) (or_inside rfl (putRd_inside_RR rd)) (putRs_inside_RR rs)
  | pushReg rd | popReg rd | mvsSR rd | mvsPCL rd | mvsPCH rd =>
    exact or_inside (m := 0xFF03) rfl (putRd_inside_Sel rd)
  | jmp t => exact or_inside (m := 0xF8FF) rfl (putImm8_inside_BA t)
  | jlz d | jgz d | jrl d =>
    exact or_inside (m := 0xF8FF) rfl (putImm8_inside_BA (BitVec.ofInt 8 d))
  | addRI _ _ | subRI _ _ | xorRI _ _ | andRI _ _ | orRI _ _ | lsl _ _ | lsr _ _ | ldr _ _
  | str _ _ | jle _ _ _ | jge _ _ _ | jeq _ _ _ => exact BitVec.and_allOnes
  | _ => rfl

/-! ### The opcode map (R71) -/

/-- Two rows that give the bits common to their masks the same values are the same row. -/
theorem opcodeMap_disjoint : ∀ p ∈ opcodeMap, ∀ q ∈ opcodeMap,
    p.pattern &&& q.mask = q.pattern &&& p.mask → p = q := by decide

/-- The map lists no row twice. -/
theorem count_opcodeMap : ∀ p ∈ opcodeMap, opcodeMap.count p = 1 := by decide

theorem row_mem_opcodeMap (i : Instr) : i.row ∈ opcodeMap := by
  cases i with
  | _ => rw [Instr.row]; decide

/-- A word lies in one row at most. -/
theorem row_unique {w : Word} {p q : OpRow} (hp : p ∈ opcodeMap) (hq : q ∈ opcodeMap)
    (hwp : w &&& p.mask = p.pattern) (hwq : w &&& q.mask = q.pattern) : p = q := by
  refine opcodeMap_disjoint p hp q hq ?_
  rw [← hwp, ← hwq, BitVec.and_assoc, BitVec.and_assoc, BitVec.and_comm p.mask]

end Sys2Proof

namespace Sys2Proof.Machine

/-- Settles O1: an encoding holds no ignored bit, so it agrees with itself on the bits that the
decoder reads, and its two bytes make up the word again. -/
theorem decodeOfEncodeGivesInstruction : Obligations.DecodeOfEncodeGivesInstruction := by
  intro i rest hwf
  have hword : decodeWord (encode i) = i := decodeWord_of_used hwf (encode_and_usedBits i)
  rw [encodeBytes, bytesOfWord, List.cons_append, List.cons_append, List.nil_append, decode,
    wordOfBytes_bytes, hword]

/-- Settles O2: the form and the encoding are two of the three things that decoding a word gives. -/
theorem encodeOfDecodeKeepsUsedBits : Obligations.EncodeOfDecodeKeepsUsedBits := by
  intro w
  obtain ⟨hwf, -, henc⟩ := encodedBy_decodeWord w
  exact ⟨hwf, henc⟩

/-- Settles O3: the word lies in the row of its instruction, no two rows hold a common word, and the
map lists no row twice. -/
theorem everyWordMatchesOneRow : Obligations.EveryWordMatchesOneRow := by
  refine ⟨rfl, fun w => ?_⟩
  obtain ⟨-, hrow, -⟩ := encodedBy_decodeWord w
  have hmem : (decodeWord w).row ∈ opcodeMap := row_mem_opcodeMap (decodeWord w)
  have hiff : ∀ p ∈ opcodeMap,
      decide (w &&& p.mask = p.pattern) = (p == (decodeWord w).row) := fun p hp => by
    rw [Bool.eq_iff_iff, decide_eq_true_iff, beq_iff_eq]
    exact ⟨fun h => row_unique hp hmem h hrow, fun h => h ▸ hrow⟩
  rw [List.filter_congr hiff, List.filter_beq, count_opcodeMap _ hmem, List.replicate_one]

/-- Settles O4: a word that agrees with w on the bits read is, under those bits, the encoding of the
instruction of w. -/
theorem ignoredBitsChangeNothing : Obligations.IgnoredBitsChangeNothing := by
  intro w w' h
  obtain ⟨hwf, -, henc⟩ := encodedBy_decodeWord w
  exact decodeWord_of_used hwf (h.symm.trans henc.symm)

/-- Settles O5: the decoder, run on the six words. -/
theorem exampleWordsDecode : Obligations.ExampleWordsDecode := by
  unfold Obligations.ExampleWordsDecode
  decide

end Sys2Proof.Machine
end

section
/-! Who reads and writes sp, ir and memory (10_state.md R31, R32; 20_memory.md R41, R45). A handler
carries along any change of the parts it does not use, which is shown once for all three; the frames
of those parts, and the obligations about them, follow from it. -/

namespace Sys2Proof.Machine

/-- Change sp, ir and memory, and leave the registers, sr and pc. -/
def State.mapAside (fsp fir : Word → Word) (fmem : Memory → Memory) (s : State) : State :=
  { s with sp := fsp s.sp, ir := fir s.ir, mem := fmem s.mem }

section
variable {fsp fir : Word → Word} {fmem : Memory → Memory} {s t : State} {i : Instr}

theorem State.mapAside_setShiftFlags (s : State) (res n : Byte) (c : Bool) :
    (s.setShiftFlags res n c).mapAside fsp fir fmem =
      (s.mapAside fsp fir fmem).setShiftFlags res n c := by
  rw [State.setShiftFlags_eq, State.setShiftFlags_eq]
  rfl

theorem State.mapAside_branchIf (s : State) (taken : Bool) (d : Int) :
    (s.branchIf taken d).mapAside fsp fir fmem = (s.mapAside fsp fir fmem).branchIf taken d := by
  rw [State.branchIf_eq, State.branchIf_eq]
  rfl

theorem execDiv_mapAside (h : execDiv s = .next t) :
    execDiv (s.mapAside fsp fir fmem) = .next (t.mapAside fsp fir fmem) := by
  obtain ⟨hzero, rfl⟩ | ⟨hne, rfl⟩ := (execDiv_next_iff s t).1 h
  · exact execDiv_of_zero (t.mapAside fsp fir fmem) hzero
  · exact execDiv_of_ne_zero (s.mapAside fsp fir fmem) hne

/-- A handler carries along any change of ir, of memory unless it touches memory, and of sp unless
it uses the stack. -/
theorem exec_mapAside (hmem : i.touchesMemory = false ∨ fmem = id)
    (hsp : i.usesStack = false ∨ fsp = id) (h : exec i s = .next t) :
    exec i (s.mapAside fsp fir fmem) = .next (t.mapAside fsp fir fmem) := by
  cases i with
  | div => exact execDiv_mapAside h
  | lsl _ _ | lsr _ _ =>
    obtain rfl := Host.Outcome.next.inj h
    rw [State.mapAside_setShiftFlags]
    rfl
  | jle _ _ _ | jge _ _ _ | jeq _ _ _ | jlz _ | jgz _ =>
    obtain rfl := Host.Outcome.next.inj h
    rw [State.mapAside_branchIf]
    rfl
  | ldr _ _ | str _ _ =>
    obtain rfl : fmem = id := hmem.resolve_left nofun
    obtain rfl := Host.Outcome.next.inj h
    rfl
  | pushReg _ | pushSR | pushPC | popReg _ | popSR | popPC =>
    obtain rfl : fmem = id := hmem.resolve_left nofun
    obtain rfl : fsp = id := hsp.resolve_left nofun
    obtain rfl := Host.Outcome.next.inj h
    rfl
  | _ =>
    obtain rfl := Host.Outcome.next.inj h
    rfl

/-! ### The three parts, one by one -/

theorem exec_setMem (hi : i.touchesMemory = false) (h : exec i s = .next t) (m : Memory) :
    exec i { s with mem := m } = .next { t with mem := m } :=
  exec_mapAside (fsp := id) (fir := id) (fmem := fun _ => m) (.inl hi) (.inr rfl) h

theorem exec_setSp (hi : i.usesStack = false) (h : exec i s = .next t) (v : Word) :
    exec i (s.setSp v) = .next (t.setSp v) :=
  exec_mapAside (fsp := fun _ => v) (fir := id) (fmem := id) (.inr rfl) (.inl hi) h

theorem exec_setIr (h : exec i s = .next t) (w : Word) :
    exec i (s.setIr w) = .next (t.setIr w) :=
  exec_mapAside (fsp := id) (fir := fun _ => w) (fmem := id) (.inr rfl) (.inr rfl) h

/-! A part that makes no difference is kept: with its own value put in it the state is the same, so
the next state is the one with that value in it. -/

theorem exec_keeps_sp (hi : i.usesStack = false) (h : exec i s = .next t) : t.sp = s.sp := by
  have hself : exec i s = .next (t.setSp s.sp) := exec_setSp hi h s.sp
  have hkept : t = t.setSp s.sp := Host.Outcome.next.inj (h.symm.trans hself)
  rw [hkept, State.setSp_sp]

theorem exec_keeps_ir (h : exec i s = .next t) : t.ir = s.ir := by
  have hself : exec i s = .next (t.setIr s.ir) := exec_setIr h s.ir
  have hkept : t = t.setIr s.ir := Host.Outcome.next.inj (h.symm.trans hself)
  rw [hkept, State.setIr_ir]

theorem exec_keeps_mem_of_untouched (hi : i.touchesMemory = false) (h : exec i s = .next t) :
    t.mem = s.mem := by
  have hself : exec i s = .next { t with mem := s.mem } := exec_setMem hi h s.mem
  have hkept : t = { t with mem := s.mem } := Host.Outcome.next.inj (h.symm.trans hself)
  rw [hkept]

/-- LDR and the pops touch memory, and do not write it (R45). -/
theorem exec_keeps_mem (hi : i.storesMemory = false) (h : exec i s = .next t) : t.mem = s.mem := by
  cases i with
  | ldr _ _ | popReg _ | popSR | popPC =>
    obtain rfl := Host.Outcome.next.inj h
    rfl
  | str _ _ | pushReg _ | pushSR | pushPC => exact nomatch hi
  | _ => exact exec_keeps_mem_of_untouched rfl h

end

/-- Settles O21: a handler that stores nothing keeps memory, and one that touches none carries any
other memory along. -/
theorem onlyMemoryInstructionsTouchMemory : Obligations.OnlyMemoryInstructionsTouchMemory :=
  fun _ _ _ h => ⟨fun hi => exec_keeps_mem hi h, fun hi m => exec_setMem hi h m⟩

/-- Settles O23: a handler that does not use the stack keeps sp and carries any other sp along. -/
theorem onlyStackInstructionsUseSp : Obligations.OnlyStackInstructionsUseSp :=
  fun _ _ _ v hi h => ⟨exec_keeps_sp hi h, exec_setSp hi h v⟩

/-- Settles O24: every handler keeps ir and carries any other ir along. -/
theorem noHandlerUsesLatch : Obligations.NoHandlerUsesLatch :=
  fun _ _ _ w h => ⟨exec_keeps_ir h, exec_setIr h w⟩

end Sys2Proof.Machine
end

section
/-! The canonical form of memory: it is kept by every step, and determines the list from what it
reads (the form is the model's choice, log entry 1); and the obligations about it. -/

namespace Sys2Proof.Machine

/-- Only STR and the pushes change memory, and they do it through the write that keeps the form. -/
theorem exec_keeps_wf {i : Instr} {s t : State} (hs : Memory.wf s.mem = true)
    (h : exec i s = .next t) : Memory.wf t.mem = true := by
  cases i with
  | str _ _ =>
    obtain rfl := Host.Outcome.next.inj h
    exact State.memWrite_wf s _ _ hs
  | pushReg _ | pushSR =>
    obtain rfl := Host.Outcome.next.inj h
    exact State.push8_wf s _ hs
  | pushPC =>
    obtain rfl := Host.Outcome.next.inj h
    exact State.push8_wf _ _ (State.push8_wf s _ hs)
  | _ =>
    rw [exec_keeps_mem rfl h]
    exact hs

/-- Settles O19: the handler keeps the form, the prefetch leaves memory alone, and a host write
keeps the form like any other. -/
theorem stepKeepsMemoryCanonical : Obligations.StepKeepsMemoryCanonical := by
  refine ⟨fun s u hs hstep => ?step, fun s k v hs => State.hostWrite_wf s k v hs⟩
  case step =>
    obtain ⟨t, hexec, rfl⟩ := (step_next_iff s u).1 hstep
    have hwf : Memory.wf t.mem = true := exec_keeps_wf hs hexec
    exact hwf

/-- Settles O20: the reset memory lists no cell. -/
theorem resetMemoryIsCanonical : Obligations.ResetMemoryIsCanonical :=
  State.reset_mem_wf

/-- A canonical list that is not empty reads, at its first address, as no unlisted cell does. -/
theorem Memory.read_head_ne {lo : Nat} {c : Host.Cell} {m : Memory}
    (h : Memory.wfFrom lo (c :: m) = true) :
    Memory.read c.1 (c :: m) ≠ Config.unlistedByte := by
  obtain ⟨-, -, hne, -⟩ := (Memory.wfFrom_cons lo c m).1 h
  rwa [Memory.read_cons, if_pos rfl]

/-- The first address of a canonical list is not past that of another one that reads alike. -/
theorem Memory.head_le_of_read_eq {lo lo' : Nat} {c c' : Host.Cell} {m m' : Memory}
    (h : Memory.wfFrom lo (c :: m) = true) (h' : Memory.wfFrom lo' (c' :: m') = true)
    (hread : ∀ k, Memory.read k (c :: m) = Memory.read k (c' :: m')) : c'.1 ≤ c.1 := by
  refine Nat.le_of_not_lt fun hlt => ?_
  have hfrom : Memory.wfFrom c'.1 (c' :: m') = true := by
    obtain ⟨-, hrest⟩ := (Memory.wfFrom_cons lo' c' m').1 h'
    exact (Memory.wfFrom_cons c'.1 c' m').2 ⟨Nat.le_refl _, hrest⟩
  have hbelow : Memory.read c.1 (c' :: m') = Config.unlistedByte :=
    Memory.read_below c'.1 c.1 _ hfrom hlt
  exact Memory.read_head_ne h ((hread c.1).trans hbelow)

/-- Lists in the canonical form from some address up are equal when they read alike: they have the
same first entry, and their tails read alike too. -/
theorem Memory.eq_of_read_eq {lo : Nat} {m m' : Memory} (h : Memory.wfFrom lo m = true)
    (h' : Memory.wfFrom lo m' = true) (hread : ∀ k, Memory.read k m = Memory.read k m') :
    m = m' := by
  induction m generalizing lo m' with
  | nil =>
    cases m' with
    | nil => rfl
    | cons c' m' => exact absurd (hread c'.1).symm (Memory.read_head_ne h')
  | cons c m ih =>
    cases m' with
    | nil => exact absurd (hread c.1) (Memory.read_head_ne h)
    | cons c' m' =>
      have haddr : c.1 = c'.1 := Nat.le_antisymm
        (Memory.head_le_of_read_eq h' h fun k => (hread k).symm)
        (Memory.head_le_of_read_eq h h' hread)
      have hhead : c = c' := by
        have hbyte := hread c.1
        rw [Memory.read_cons, Memory.read_cons, if_pos rfl, if_pos haddr.symm] at hbyte
        exact Prod.ext haddr hbyte
      subst hhead
      obtain ⟨-, -, -, htl⟩ := (Memory.wfFrom_cons lo c m).1 h
      obtain ⟨-, -, -, htl'⟩ := (Memory.wfFrom_cons lo c m').1 h'
      have htail : ∀ k, Memory.read k m = Memory.read k m' := fun k => by
        by_cases hk : c.1 = k
        · rw [Memory.read_below _ k m htl (by omega), Memory.read_below _ k m' htl' (by omega)]
        · have hk' := hread k
          rwa [Memory.read_cons, Memory.read_cons, if_neg hk, if_neg hk] at hk'
      rw [ih htl htl' htail]

/-- Settles O18: both lists are in the form from address 0 up. -/
theorem canonicalMemoryIsExtensional : Obligations.CanonicalMemoryIsExtensional :=
  fun _ _ h h' hread => Memory.eq_of_read_eq h h' hread

end Sys2Proof.Machine
end

section
/-! What a handler may write of the registers, of sr and of pc (10_state.md R23, R25, R28), and the
obligations about it. -/

namespace Sys2Proof.Machine

section
variable {s t : State} {i : Instr}

/-- A register that is not the one written is kept. -/
theorem RegsKept.setReg (s : State) (rd : Reg) (v : Byte) : RegsKept s (s.setReg rd v) [rd] :=
  fun _ hr => s.reg_setReg_ne v (List.ne_of_not_mem_cons hr)

theorem RegsKept.of_regs_eq (h : t.regs = s.regs) (written : List Reg) : RegsKept s t written :=
  fun r _ => congrArg (fun f => RegFile.get f r) h

theorem RegisterFrame.regsKept {written : List Reg} {mask : Byte}
    (h : RegisterFrame s t written mask) : RegsKept s t written := by
  obtain ⟨hregs, -⟩ := h
  exact hregs

/-- What DIV may write, whatever the divisor (R106). -/
theorem execDiv_frame (h : execDiv s = .next t) : RegisterFrame s t [.r2, .r3] 0x03 := by
  obtain ⟨-, rfl⟩ | ⟨-, rfl⟩ := (execDiv_next_iff s t).1 h
  · exact RegisterFrame.refl t [.r2, .r3] 0x03
  · exact (RegisterFrame.setPair s 0x03 _).setDivFlags _

/-- A handler writes of the registers at most those that R23 lists for it. -/
theorem exec_regsKept (h : exec i s = .next t) : RegsKept s t i.regWrites := by
  cases i with
  | div => exact (execDiv_frame h).regsKept
  | addRR rd _ | subRR rd _ | addRI rd _ | subRI rd _ | xorRR rd _ | andRR rd _ | orRR rd _
  | xorRI rd _ | andRI rd _ | orRI rd _ | ldr rd _ | mov rd _ | mvsSR rd | mvsPCL rd | mvsPCH rd =>
    obtain rfl := Host.Outcome.next.inj h
    exact RegsKept.setReg s rd _
  | lsl rd n | lsr rd n =>
    obtain rfl := Host.Outcome.next.inj h
    exact (RegisterFrame.setShiftFlags (RegisterFrame.setReg_self s rd _) _ _).regsKept
  | mul =>
    obtain rfl := Host.Outcome.next.inj h
    exact (RegisterFrame.setPair s 0x0B _).regsKept
  | popReg rd =>
    obtain rfl := Host.Outcome.next.inj h
    exact RegsKept.setReg s.pop8 rd _
  | jle _ _ _ | jge _ _ _ | jeq _ _ _ | jlz _ | jgz _ =>
    obtain rfl := Host.Outcome.next.inj h
    obtain ⟨hregs, -⟩ := BranchFrame.branchIf s _ _
    exact hregs
  | _ =>
    obtain rfl := Host.Outcome.next.inj h
    exact RegsKept.of_regs_eq rfl []

@[simp] theorem State.setShiftFlags_pc (s : State) (res n : Byte) (c : Bool) :
    (s.setShiftFlags res n c).pc = s.pc := by
  rw [State.setShiftFlags_eq, State.setSr_pc]

/-- A handler that transfers no control leaves pc alone (R30, R204). -/
theorem exec_keeps_pc (hi : i.transfersControl = false) (h : exec i s = .next t) :
    t.pc = s.pc := by
  cases i with
  | div =>
    obtain ⟨-, -, -, hpc, -⟩ := execDiv_frame h
    exact hpc
  | lsl _ _ | lsr _ _ =>
    obtain rfl := Host.Outcome.next.inj h
    exact State.setShiftFlags_pc _ _ _ _
  | jmp _ | jle _ _ _ | jge _ _ _ | jeq _ _ _ | jlz _ | jgz _ | jrl _ | popPC =>
    exact nomatch hi
  | _ =>
    obtain rfl := Host.Outcome.next.inj h
    rfl

end

/-- Settles O25: each handler writes the registers of its own line of the table. -/
theorem handlersWriteOnlyListedRegisters : Obligations.HandlersWriteOnlyListedRegisters :=
  fun _ _ _ h => exec_regsKept h

/-- Settles O26: the bits outside the listed ones are kept, and the high four are listed for POP SR
alone. -/
theorem handlersWriteOnlyListedFlags : Obligations.HandlersWriteOnlyListedFlags :=
  ⟨fun _ _ _ h => exec_srKept h, fun _ hi => srWrites_high hi⟩

/-- Settles O10: the handler leaves pc and the prefetch adds 2 to it, modulo an even number. -/
theorem onlyTransfersMovePc : Obligations.OnlyTransfersMovePc := by
  refine ⟨fun i s t hi h => exec_keeps_pc hi h, fun s u hi hstep => ?step⟩
  case step =>
    obtain ⟨t, hexec, rfl⟩ := (step_next_iff s u).1 hstep
    have hpc : t.prefetch.pc.toNat = (s.pc.toNat + 2) % 65536 := by
      rw [State.prefetch_pc, exec_keeps_pc hi hexec, BitVec.toNat_add]
      rfl
    exact ⟨hpc, fun heven => by omega⟩

end Sys2Proof.Machine
end

section
/-! Runs and the latch: a run is a chain of steps, and every step ends in the prefetch
(30_encoding.md R80 to R82); and the obligations about them. -/

namespace Sys2Proof.Machine

/-- No step faults or refuses (R82, R200). -/
theorem step_completes (s : State) : ∃ t, step s = .next t := by
  obtain ⟨t, hexec⟩ := exec_completes (decodeWord s.ir) s
  exact ⟨t.prefetch, step_of_exec hexec⟩

/-- A run of k + 1 steps is a step and a run of k, on any machine. -/
theorem core_run_succ (M : Host.Core) {s t : M.State} (h : M.step s = .next t) (k : Nat) :
    M.run (k + 1) s = M.run k t := by
  rw [Host.Core.run, h]

theorem run_succ {s t : State} (h : step s = .next t) (k : Nat) :
    Host.Core.run Sys2Proof.core (k + 1) s = Host.Core.run Sys2Proof.core k t :=
  core_run_succ Sys2Proof.core h k

theorem run_zero (s : State) : Host.Core.run Sys2Proof.core 0 s = .next s := rfl

theorem runCompletes (k : Nat) (s : State) : RunCompletes k s := by
  induction k generalizing s with
  | zero => exact ⟨s, run_zero s⟩
  | succ k ih =>
    obtain ⟨t, hstep⟩ := step_completes s
    rw [RunCompletes, run_succ hstep]
    exact ih t

/-- Settles O8: no handler stops, so no step does, and so no run does. -/
theorem everyRunCompletes : Obligations.EveryRunCompletes :=
  ⟨exec_completes, runCompletes⟩

/-! ### The latch (R29, R81) -/

/-- The advance of pc is what `pc - 2` takes back. -/
theorem State.prefetch_pc_sub_two (s : State) : s.prefetch.pc - 2 = s.pc :=
  BitVec.add_sub_cancel s.pc 2

/-- A fetch reads memory alone, which the prefetch leaves as it was. -/
@[simp] theorem State.prefetch_fetchWord (s : State) (a : Nat) :
    s.prefetch.fetchWord a = s.fetchWord a := rfl

/-- The prefetch latches the word at the address it leaves 2 below pc. -/
theorem State.prefetch_latched (s : State) :
    s.prefetch.ir = s.prefetch.fetchWord (s.prefetch.pc - 2).toNat := by
  rw [State.prefetch_pc_sub_two, State.prefetch_ir, State.prefetch_fetchWord]

/-- The decoder reads from two bytes what a fetch makes of them (R43). -/
theorem decode_fetched (s : State) (a : Nat) :
    decode [s.memRead a, s.memRead (a + 1)] = .ok (decodeWord (s.fetchWord a), []) := rfl

/-- Settles O9: a step ends in the prefetch, which latches the word at pc - 2. -/
theorem latchHoldsWordBeforePc : Obligations.LatchHoldsWordBeforePc := by
  intro s u hstep
  obtain ⟨t, -, rfl⟩ := (step_next_iff s u).1 hstep
  have hir := t.prefetch_latched
  refine ⟨hir, ?bytes⟩
  case bytes => rw [decode_fetched, ← hir]

/-! ### The end of a run (R229) -/

theorem State.atEnd.step_eq {s : State} (h : s.atEnd) : step s = .next s := by
  obtain ⟨hir, hmem⟩ := h
  have hdec : decodeWord s.ir = .jrl 0 := by rw [hir]; decide
  obtain ⟨-, -, hself⟩ := relativeJump
  exact hself s hdec (hir.trans hmem.symm)

/-- Settles O11: the step of JRL #0 from unchanged memory answers the state itself, and with it
every number of steps. -/
theorem selfLoopKeepsState : Obligations.SelfLoopKeepsState := by
  refine fun s hend => ⟨hend.step_eq, fun k => ?run⟩
  case run =>
    induction k with
    | zero => exact run_zero s
    | succ k ih => rw [run_succ hend.step_eq, ih]

end Sys2Proof.Machine
end

section
/-! The launch of a program (70_reset_and_hazards.md R224, R225): the host's writes reach memory
alone, the last one at a cell stays, and the first step is the fill step; and the obligations about
it. -/

namespace Sys2Proof.Machine

/-- An image changes memory and nothing else (R228). -/
theorem State.hostLoad_eq (s : State) (image : List (Fin Config.memSize × Byte)) :
    s.hostLoad image = { s with mem := (s.hostLoad image).mem } := by
  induction image generalizing s with
  | nil => rfl
  | cons c rest ih => exact ih (s.hostWrite c.1 c.2)

theorem State.hostLoad_append (s : State) (xs ys : List (Fin Config.memSize × Byte)) :
    s.hostLoad (xs ++ ys) = (s.hostLoad xs).hostLoad ys := by
  induction xs generalizing s with
  | nil => rfl
  | cons c xs ih => exact ih (s.hostWrite c.1 c.2)

/-- The host writes a cell (R228). -/
theorem State.hostWrite_memRead_cell (s : State) (k a : Fin Config.memSize) (v : Byte) :
    (s.hostWrite k v).memRead a.val = if a = k then v else s.memRead a.val := by
  rw [State.hostWrite_memRead, phys_of_lt a.isLt]
  exact ite_of_iff Fin.val_inj _ _

/-- A cell that an image does not name is left alone. -/
theorem State.hostLoad_memRead_of_not_mem (s : State) {image : List (Fin Config.memSize × Byte)}
    {a : Fin Config.memSize} (h : a ∉ image.map Prod.fst) :
    (s.hostLoad image).memRead a.val = s.memRead a.val := by
  induction image generalizing s with
  | nil => rfl
  | cons c rest ih =>
    rw [List.map_cons, List.mem_cons, not_or] at h
    obtain ⟨hne, hrest⟩ := h
    rw [State.hostLoad, ih _ hrest, State.hostWrite_memRead_cell, if_neg hne]

/-- Settles O14: a cell keeps what it held before the part of the image that does not name it, which
is 0 after construction, or the last byte written to it. -/
theorem launchMemoryIsTheImage : Obligations.LaunchMemoryIsTheImage := by
  refine ⟨fun image a h => ?unnamed, fun image rest a v h => ?named⟩
  case unnamed =>
    rw [State.launch, State.hostLoad_memRead_of_not_mem _ h, State.reset_memRead]
  case named =>
    rw [State.launch, State.hostLoad_append, State.hostLoad,
      State.hostLoad_memRead_of_not_mem _ h, State.hostWrite_memRead_cell, if_pos rfl]

/-! ### The fill step (R224) -/

section
variable (image : List (Fin Config.memSize × Byte))

/-- The launch state is the reset state with the host's memory (R225). -/
theorem State.launch_eq :
    State.launch image = { State.reset with mem := (State.launch image).mem } :=
  State.hostLoad_eq State.reset image

@[simp] theorem State.launch_ir : (State.launch image).ir = 0 := by rw [State.launch_eq]; rfl
@[simp] theorem State.launch_sr : (State.launch image).sr = 0 := by rw [State.launch_eq]; rfl
@[simp] theorem State.launch_pc : (State.launch image).pc = 0 := by rw [State.launch_eq]; rfl
@[simp] theorem State.launch_sp : (State.launch image).sp = 0xFFFF := by rw [State.launch_eq]; rfl
@[simp] theorem State.launch_reg (r : Reg) : (State.launch image).reg r = 0 := by
  rw [State.launch_eq]
  exact State.reset_reg r

/-- 0x0000 is ADD r0, r0 (R224). -/
theorem decodeWord_launch_ir : decodeWord (State.launch image).ir = .addRR .r0 .r0 := by
  rw [State.launch_ir]
  decide

end

/-- 0 + 0 is zero, not negative, and neither overflows nor carries (R90). -/
theorem aluAdd_zero_zero :
    aluAdd 0 0 = { res := 0, z := true, n := false, v := false, c := false } := by decide

/-- ADD r0, r0 with r0 zero. -/
theorem exec_addRR_r0_of_zero {s : State} (h : s.reg .r0 = 0) :
    exec (.addRR .r0 .r0) s = .next ((s.setReg .r0 0).setZNVC
      { res := 0, z := true, n := false, v := false, c := false }) := by
  rw [exec, execAddRR, h, aluAdd_zero_zero]

/-- Settles O13: the launch state is the reset state but for memory, so the first step runs ADD r0,
r0 on zero registers, which sets Z alone, and the prefetch reads the host's memory at 0. -/
theorem fillStepFetchesEntryPoint : Obligations.FillStepFetchesEntryPoint := by
  intro image
  refine ⟨⟨State.launch_ir image, decodeWord_launch_ir image, State.launch_reg image,
    State.launch_sr image, State.launch_pc image, State.launch_sp image⟩, ?step⟩
  case step =>
    have hexec := exec_addRR_r0_of_zero (State.launch_reg image .r0)
    rw [← decodeWord_launch_ir image] at hexec
    refine ⟨_, step_of_exec hexec, fun r => ?reg, ?sr, ?pc, State.launch_sp image, ?ir, rfl⟩
    case reg =>
      rw [State.prefetch_reg, State.setZNVC_reg, State.reg_setReg, State.launch_reg, ite_self]
    case sr =>
      rw [State.prefetch_sr, State.setZNVC_eq, State.setSr_sr, State.setReg_sr, State.launch_sr]
      decide
    case pc =>
      rw [State.prefetch_pc, State.setZNVC_eq, State.setSr_pc, State.setReg_pc, State.launch_pc]
      rfl
    case ir =>
      rw [State.prefetch_ir, State.setZNVC_eq, State.setSr_pc, State.setReg_pc, State.launch_pc]
      rfl

end Sys2Proof.Machine
end

section
/-! One write and one push seen through later reads and fetches (20_memory.md R40, R51;
43_memory_stack.md R143, R144), and the obligations about the write, STR and PUSH rd. -/

namespace Sys2Proof.Machine

/-- Settles O16: two addresses name one cell when they are equal modulo the size of the buffer. -/
theorem readAfterWriteThroughWrap : Obligations.ReadAfterWriteThroughWrap := by
  refine fun s a b v => ⟨?read, rfl, rfl, rfl, rfl, rfl⟩
  case read =>
    rw [State.memWrite_memRead]
    exact ite_of_iff eq_comm _ _

/-- The low byte of a fetched word is the byte at the address (R43). -/
theorem State.fetchWord_low (s : State) (a : Nat) :
    (s.fetchWord a).extractLsb' 0 8 = s.memRead a :=
  wordOfBytes_low (s.memRead a) (s.memRead (a + 1))

/-- The high byte of a fetched word is the byte at the next address (R43). -/
theorem State.fetchWord_high (s : State) (a : Nat) :
    (s.fetchWord a).extractLsb' 8 8 = s.memRead (a + 1) :=
  wordOfBytes_high (s.memRead a) (s.memRead (a + 1))

/-- Settles O22: the prefetch reads the memory that the store left. -/
theorem storeIsSeenBySameStepsPrefetch : Obligations.StoreIsSeenBySameStepsPrefetch := by
  intro s rd d hdec
  have hexec : exec (decodeWord s.ir) s = .next (s.memWrite (s.eaStore d) (s.reg rd)) := by
    rw [hdec]; rfl
  refine ⟨_, step_of_exec hexec, rfl, ?low, ?high⟩
  case low =>
    rw [State.prefetch_ir, State.memWrite_pc, State.fetchWord_low, State.memWrite_memRead]
    exact ite_of_iff eq_comm _ _
  case high =>
    rw [State.prefetch_ir, State.memWrite_pc, State.fetchWord_high, State.memWrite_memRead]
    exact ite_of_iff eq_comm _ _

/-- Settles O44: PUSH rd is one push, of the register. -/
theorem pushRegister : Obligations.PushRegister :=
  ⟨rowSel_pushReg, fun rd s => ⟨_, rfl, s.push8_memRead_same (s.reg rd), rfl,
    MemKeptBut.push8 s (s.reg rd), rfl, rfl, rfl, rfl⟩⟩

end Sys2Proof.Machine
end

section
/-! Pops after pushes (43_memory_stack.md R144, R150; 90_conflicts.md C6, C9), and the obligations
about POP PC and the round trips. -/

namespace Sys2Proof.Machine

/-! ### POP PC (R150) -/

/-- POP PC loads pc from the two bytes above sp, the low byte first. -/
theorem exec_popPC (s : State) :
    exec .popPC s = .next ((s.setSp (s.sp + 2)).setPc
      (wordOfBytes (s.memRead (s.sp + 1).toNat) (s.memRead (s.sp + 2).toNat))) := by
  have hsp : s.sp + 1 + 1 = s.sp + 2 := BitVec.add_assoc s.sp 1 1
  rw [← hsp]
  rfl

/-- Settles O49: the value of a word of two bytes, and the prefetch at it. -/
theorem popPcLandsOnPoppedAddress : Obligations.PopPcLandsOnPoppedAddress := by
  refine ⟨rowPlain_popPC,
    fun s => ⟨_, exec_popPC s, wordOfBytes_toNat _ _, rfl, rfl, rfl, rfl, fun _ => rfl⟩,
    fun s t hdec hexec => ?step⟩
  case step =>
    have hmem : t.mem = s.mem := exec_keeps_mem rfl hexec
    rw [← hdec] at hexec
    exact ⟨_, step_of_exec hexec, State.fetchWord_congr hmem t.pc.toNat, rfl⟩

/-- Settles O53: the two bytes that PUSH PC left are those that POP PC reads, and they make up the
pushed pc. -/
theorem popPcReturnsToPushedAddress : Obligations.PopPcReturnsToPushedAddress := by
  intro s t r hsp hpush hrsp hhigh hlow hdec
  obtain ⟨-, hpushes⟩ := pushPcHighByteFirst
  obtain ⟨t', hpush', hlow', hhigh', -, htsp, -⟩ := hpushes s
  obtain rfl : t = t' := Host.Outcome.next.inj (hpush.symm.trans hpush')
  have htwo : r.sp + 2 = s.sp := by rw [hrsp, htsp, BitVec.sub_add_cancel]
  have hone : r.sp + 1 = s.sp - 1 := by rw [hrsp, htsp]; bv_omega
  have hexec : exec (decodeWord r.ir) r = .next ((r.setSp s.sp).setPc s.pc) := by
    rw [hdec, exec_popPC, htwo, hone, hlow, hlow', hhigh, hhigh' hsp, wordOfBytes_bytes]
  exact ⟨_, step_of_exec hexec, rfl, rfl, rfl⟩

/-! ### PUSH rd and POP rd (R144) -/

/-- A push of the byte that its cell already holds changes no byte. -/
theorem State.push8_memRead_of_same {s : State} {v : Byte} (h : s.memRead s.sp.toNat = v)
    (b : Nat) : (s.push8 v).memRead b = s.memRead b := by
  rw [State.push8_memRead]
  split
  · next hcell => rw [← h, State.memRead, State.memRead, hcell]
  · rfl

/-- A push leaves a word alone whose two bytes are in other cells, or when it changes no byte. -/
theorem State.push8_fetchWord {s : State} {v : Byte} {a : Nat}
    (h : (phys s.sp.toNat ≠ phys a ∧ phys s.sp.toNat ≠ phys (a + 1)) ∨ s.memRead s.sp.toNat = v) :
    (s.push8 v).fetchWord a = s.fetchWord a := by
  obtain ⟨hlow, hhigh⟩ | hsame := h
  · rw [State.fetchWord, MemKeptBut.push8 s v a hlow.symm,
      MemKeptBut.push8 s v (a + 1) hhigh.symm, ← State.fetchWord]
  · rw [State.fetchWord, State.push8_memRead_of_same hsame, State.push8_memRead_of_same hsame,
      ← State.fetchWord]

/-- POP rd right after a push of v loads v and puts sp back. -/
theorem exec_popReg_of_push8 (s : State) (rd : Reg) (v : Byte) :
    exec (.popReg rd) (s.push8 v).prefetch =
      .next (((s.push8 v).prefetch.setSp s.sp).setReg rd v) := by
  have hsp : s.sp - 1 + 1 = s.sp := BitVec.sub_add_cancel s.sp 1
  have hpopped : (s.push8 v).prefetch.popped8 = v := by
    rw [State.popped8_eq, State.prefetch_memRead, State.prefetch_sp, State.push8_sp, hsp,
      State.push8_memRead_same]
  rw [exec, execPopReg, hpopped, State.pop8, State.prefetch_sp, State.push8_sp, hsp]

/-- Settles O52: the push leaves the POP in memory as it was, so the second step runs it, and it
loads the pushed byte. -/
theorem pushThenPopRestores : Obligations.PushThenPopRestores := by
  intro s rd hpush hpop hcells
  have hfirst : exec (decodeWord s.ir) s = .next (s.push8 (s.reg rd)) := by rw [hpush]; rfl
  have hlatched : decodeWord (s.push8 (s.reg rd)).prefetch.ir = .popReg rd := by
    rw [State.prefetch_ir, State.push8_pc, State.push8_fetchWord hcells, hpop]
  have hsecond := exec_popReg_of_push8 s rd (s.reg rd)
  rw [← hlatched] at hsecond
  have hrun : Host.Core.run Sys2Proof.core 2 s =
      .next (((s.push8 (s.reg rd)).prefetch.setSp s.sp).setReg rd (s.reg rd)).prefetch := by
    rw [run_succ (step_of_exec hfirst), run_succ (step_of_exec hsecond), run_zero]
  refine ⟨_, hrun, fun r => ?regs, rfl, rfl, ?pc, MemKeptBut.push8 s (s.reg rd)⟩
  case regs =>
    rw [State.prefetch_reg, State.reg_setReg]
    split
    · next hr => rw [hr]
    · rfl
  case pc => exact BitVec.add_assoc s.pc 2 2

end Sys2Proof.Machine
end

section
/-! The step of a taken relative branch (44_branch.md R170), and the obligation about it. -/

namespace Sys2Proof.Machine

/-- A conditional branch whose test holds writes pc. -/
theorem exec_of_branchIf {s : State} {i : Instr} {taken : Bool} {d : Int}
    (h : exec i s = .next (s.branchIf taken d)) (htaken : taken = true) :
    exec i s = .next (s.setPc (s.jumpRelative d)) := by
  rw [h, htaken, State.branchIf_true]

/-- Settles O58: in each of the six cases the handler writes pc + d - 2, which is where the prefetch
fetches, and the advance makes it pc + d. -/
theorem takenBranchLatchesTargetWord : Obligations.TakenBranchLatchesTargetWord := by
  intro s d htaken
  have hexec : exec (decodeWord s.ir) s = .next (s.setPc (s.jumpRelative d)) := by
    rcases htaken with h | ⟨rd, rs, h, hle⟩ | ⟨rd, rs, h, hge⟩ | ⟨rd, rs, h, heq⟩ | ⟨h, hn⟩ |
      ⟨h, hn, hz⟩
    · rw [h]; rfl
    · rw [h]; exact exec_of_branchIf rfl (decide_eq_true hle)
    · rw [h]; exact exec_of_branchIf rfl (decide_eq_true hge)
    · rw [h]; exact exec_of_branchIf rfl (decide_eq_true heq)
    · rw [h]; exact exec_of_branchIf rfl hn
    · rw [h]; exact exec_of_branchIf rfl (s.not_flagN_and_not_flagZ_iff.2 ⟨hn, hz⟩)
  have hpc := s.jumpRelative_toNat d
  refine ⟨_, step_of_exec hexec, ?pc, ?ir⟩
  case pc =>
    rw [State.prefetch_pc, State.setPc_pc, BitVec.toNat_add]
    have htwo : (2 : Word).toNat = 2 := rfl
    omega
  case ir =>
    rw [State.prefetch_ir, State.setPc_pc, State.setPc_fetchWord, ← hpc, Int.toNat_natCast]

end Sys2Proof.Machine
end

section
/-! SL set takes r6 and r7 out of the addresses (10_state.md R26; 43_memory_stack.md R140), and the
obligation about it. -/

namespace Sys2Proof.Machine

/-- Writes of two registers may change places. -/
theorem State.setReg_comm (s : State) {r q : Reg} (h : r ≠ q) (v x : Byte) :
    (s.setReg r v).setReg q x = (s.setReg q x).setReg r v := by
  have hregs : (s.regs.set r v).set q x = (s.regs.set q x).set r v := by
    refine RegFile.ext_get _ _ fun p => ?_
    rw [RegFile.get_set, RegFile.get_set, RegFile.get_set, RegFile.get_set]
    by_cases hq : p = q
    · rw [if_pos hq, if_pos hq, if_neg fun hr => h (hr.symm.trans hq)]
    · rw [if_neg hq, if_neg hq]
  exact congrArg (fun f => { s with regs := f }) hregs

/-- With SL set STR goes through the source pair, as LDR does (R26, R140). -/
theorem State.eaStore_of_linked {s : State} (h : s.flagSL = true) (d : Byte) :
    s.eaStore d = s.eaLoad d := by
  rw [State.eaStore, if_pos h, State.eaLoad]

/-- The source pair is neither r6 nor r7. -/
theorem State.eaLoad_setReg_dest (s : State) (lo hi d : Byte) :
    ((s.setReg .dal lo).setReg .dah hi).eaLoad d = s.eaLoad d := rfl

/-- Settles O28: the addresses are those of the old registers, and a write of memory or of another
register may change places with the writes of r6 and r7. -/
theorem linkedModeIgnoresDestinationPair : Obligations.LinkedModeIgnoresDestinationPair := by
  refine fun rd d s t lo hi v hdal hdah => ⟨fun hSL h => ?store, fun h => ?load⟩
  case store =>
    obtain rfl := Host.Outcome.next.inj h
    have hreg : ((s.setReg .dal lo).setReg .dah hi).reg rd = s.reg rd := by
      rw [State.reg_setReg_ne _ hi hdah, State.reg_setReg_ne _ lo hdal]
    have hSL' : ((s.setReg .dal lo).setReg .dah hi).flagSL = true := hSL
    rw [exec, execStr, hreg, State.eaStore_of_linked hSL', State.eaLoad_setReg_dest,
      ← State.eaStore_of_linked hSL]
    rfl
  case load =>
    obtain rfl := Host.Outcome.next.inj h
    rw [State.setReg_comm s hdal, State.setReg_comm _ hdah]
    rfl

end Sys2Proof.Machine
end

section
/-! What C and V mean (41_arith_rr.md R90, R91; 42_arith_ri.md R125), and the obligations about
them. -/

namespace Sys2Proof.Machine

/-! ### The carry of a shift -/

section
variable (a : Byte) {n : Byte}

/-- Bits of a byte from 8 up are 0. -/
theorem byte_testBit_of_ge {j : Nat} (h : 8 ≤ j) : a.toNat.testBit j = false :=
  BitVec.getLsbD_of_ge a j h

theorem carryLeft_eq_testBit (n : Byte) : carryLeft a n = (a.toNat * 2 ^ n.toNat).testBit 8 := by
  rw [carryLeft, Nat.testBit_mul_two_pow]
  split
  · next hle => rw [decide_eq_true hle, Bool.true_and]; rfl
  · next hgt => rw [decide_eq_false hgt, Bool.false_and]

/-- For a count of 0 there is no bit n - 1; the carry is not written then. -/
theorem carryRight_eq_testBit (h : n ≠ 0) :
    carryRight a n = (a.toNat / 2 ^ (n.toNat - 1)).testBit 0 := by
  have hpos : n.toNat ≠ 0 := fun e => h (BitVec.eq_of_toNat_eq e)
  rw [carryRight, Nat.testBit_div_two_pow, Nat.zero_add]
  split
  · rfl
  · next hgt => rw [byte_testBit_of_ge a (by omega)]

end

/-- Settles O39: for a count that is not 0 the carry is written, and the model's bit of the operand
is the one that leaves last. -/
theorem shiftCarryIsLastBitOut : Obligations.ShiftCarryIsLastBitOut := by
  refine fun rd n s t hn => ⟨fun h => ?left, fun h => ?right⟩
  case left =>
    obtain rfl := Host.Outcome.next.inj h
    obtain ⟨-, -, hcarry, -⟩ := setReg_setShiftFlags s rd (shiftLeft (s.reg rd) n) n
      (carryLeft (s.reg rd) n)
    exact (hcarry hn).trans (carryLeft_eq_testBit (s.reg rd) n)
  case right =>
    obtain rfl := Host.Outcome.next.inj h
    obtain ⟨-, -, hcarry, -⟩ := setReg_setShiftFlags s rd (shiftRight (s.reg rd) n) n
      (carryRight (s.reg rd) n)
    exact (hcarry hn).trans (carryRight_eq_testBit (s.reg rd) hn)

/-! ### The overflow of an addition and of a subtraction -/

section
variable (a b : Byte)

theorem bit7_eq_msb : bit7 a = a.msb := (BitVec.msb_eq_getLsbD_last a).symm

/-- The overflow formula of R90 is the library's signed overflow. -/
theorem aluAdd_v : (aluAdd a b).v = a.saddOverflow b := by
  have hres : (aluAdd a b).res = a + b := rfl
  have hv : (aluAdd a b).v =
      (bit7 a == bit7 b && bit7 (aluAdd a b).res != bit7 a) := rfl
  rw [hv, hres, BitVec.saddOverflow_eq, bit7_eq_msb, bit7_eq_msb, bit7_eq_msb, bne]

/-- The overflow formula of R91 is the library's signed overflow. -/
theorem aluSub_v : (aluSub a b).v = a.ssubOverflow b := by
  have hv : (aluSub a b).v = (bit7 a != bit7 b && bit7 (a - b) != bit7 a) := rfl
  rw [hv, BitVec.ssubOverflow_eq, bit7_eq_msb, bit7_eq_msb, bit7_eq_msb]
  cases a.msb <;> cases b.msb <;> cases (a - b).msb <;> rfl

theorem aluAdd_v_iff :
    (aluAdd a b).v = true ↔ a.toInt + b.toInt < -128 ∨ 127 < a.toInt + b.toInt := by
  rw [aluAdd_v, BitVec.saddOverflow, Bool.or_eq_true, decide_eq_true_iff, decide_eq_true_iff]
  omega

theorem aluSub_v_iff :
    (aluSub a b).v = true ↔ a.toInt - b.toInt < -128 ∨ 127 < a.toInt - b.toInt := by
  rw [aluSub_v, BitVec.ssubOverflow, Bool.or_eq_true, decide_eq_true_iff, decide_eq_true_iff]
  omega

end

/-- Settles O40: V after each of the four is the overflow of its addition or subtraction. -/
theorem overflowFlagIsSignedOverflow : Obligations.OverflowFlagIsSignedOverflow := by
  refine fun rd rs imm s t => ⟨fun h => ?addRR, fun h => ?subRR, fun h => ?addRI, fun h => ?subRI⟩
  case addRR =>
    obtain rfl := Host.Outcome.next.inj h
    rw [State.flagV_setZNVC, aluAdd_v_iff]
  case subRR =>
    obtain rfl := Host.Outcome.next.inj h
    rw [State.flagV_setZNVC, aluSub_v_iff]
  case addRI =>
    obtain rfl := Host.Outcome.next.inj h
    rw [State.flagV_setZNVC, aluAdd_v_iff]
  case subRI =>
    obtain rfl := Host.Outcome.next.inj h
    rw [State.flagV_setZNVC, aluSub_v_iff]

end Sys2Proof.Machine
end

section
/-! Who depends on sr (10_state.md R25): two states that differ in sr alone run alike, each write of
a flag making one more bit of sr equal; and the obligation about it. -/

namespace Sys2Proof.Machine

/-- Two states that are the same but for the bits of sr outside a mask. -/
def SrAlike (mask : Byte) (t u : State) : Prop :=
  u.setSr 0 = t.setSr 0 ∧ u.sr &&& mask = t.sr &&& mask

theorem SrAlike.refl (mask : Byte) (t : State) : SrAlike mask t t := ⟨rfl, rfl⟩

/-- Any other sr, which agrees in no bit. -/
theorem SrAlike.setSr (t : State) (v : Byte) : SrAlike 0 t (t.setSr v) :=
  ⟨rfl, BitVec.and_zero.trans BitVec.and_zero.symm⟩

section
variable {mask : Byte} {t u : State}

theorem SrAlike.setReg (h : SrAlike mask t u) (r : Reg) (x : Byte) :
    SrAlike mask (t.setReg r x) (u.setReg r x) := by
  obtain ⟨hrest, hsr⟩ := h
  exact ⟨congrArg (fun s => s.setReg r x) hrest, hsr⟩

/-- A bit written in both states is equal in both (R93). -/
theorem SrAlike.setBit (h : SrAlike mask t u) {i : Nat} (hi : i < 8) (b : Bool) :
    SrAlike (mask ||| 1#8 <<< i) (t.setSr (putBit i b t.sr)) (u.setSr (putBit i b u.sr)) := by
  obtain ⟨hrest, hsr⟩ := h
  refine ⟨hrest, BitVec.eq_of_getLsbD_eq fun j hj => ?_⟩
  have hbit : (u.sr &&& mask).getLsbD j = (t.sr &&& mask).getLsbD j := by rw [hsr]
  rw [BitVec.getLsbD_and, BitVec.getLsbD_and] at hbit
  rw [State.setSr_sr, State.setSr_sr, BitVec.getLsbD_and, BitVec.getLsbD_and,
    getLsbD_putBit i j b _ hi, getLsbD_putBit i j b _ hi, BitVec.getLsbD_or]
  by_cases hij : j = i
  · rw [if_pos hij, if_pos hij]
  · have hother : (1#8 <<< i).getLsbD j = false := by
      rw [BitVec.getLsbD_shiftLeft, BitVec.getLsbD_one]
      by_cases hlt : j < i
      · simp [hlt]
      · simp [show j - i ≠ 0 by omega]
    rw [if_neg hij, if_neg hij, hother, Bool.or_false, hbit]

/-! Each group of flag writes, from states that agree in no bit of sr. -/

theorem SrAlike.setZ_setN (h : SrAlike 0 t u) (z n : Bool) :
    SrAlike 0x03 ((t.setZ z).setN n) ((u.setZ z).setN n) :=
  (h.setBit (i := 0) (by decide) z).setBit (i := 1) (by decide) n

theorem SrAlike.setZNVC (h : SrAlike 0 t u) (r : AluResult) :
    SrAlike 0x0F (t.setZNVC r) (u.setZNVC r) :=
  ((h.setZ_setN r.z r.n).setBit (i := 2) (by decide) r.v).setBit (i := 3) (by decide) r.c

theorem SrAlike.setMulFlags (h : SrAlike 0 t u) (p : Nat) :
    SrAlike 0x0B (t.setMulFlags p) (u.setMulFlags p) :=
  (h.setZ_setN (decide (p = 0)) (p.testBit 15)).setBit (i := 3) (by decide) (decide (256 ≤ p))

theorem SrAlike.setShiftFlags (h : SrAlike 0 t u) (res n : Byte) (c : Bool) :
    SrAlike (if n = 0 then 0x03 else 0x0B) (t.setShiftFlags res n c)
      (u.setShiftFlags res n c) := by
  have hzn : SrAlike 0x03 (t.setZN res) (u.setZN res) := h.setZ_setN (decide (res = 0)) (bit7 res)
  by_cases hn : n = 0
  · rw [if_pos hn, hn, State.setShiftFlags_zero, State.setShiftFlags_zero]
    exact hzn
  · rw [if_neg hn, State.setShiftFlags_of_ne t res c hn, State.setShiftFlags_of_ne u res c hn]
    exact hzn.setBit (i := 3) (by decide) c

end

/-- A test that does not look at sr moves pc whatever sr is. -/
theorem State.setSr_branchIf (s : State) (taken : Bool) (d : Int) (v : Byte) :
    (s.branchIf taken d).setSr v = (s.setSr v).branchIf taken d := by
  rw [State.branchIf_eq, State.branchIf_eq]
  rfl

/-- DIV by a divisor that is not 0 writes Z and N, whatever sr is. -/
theorem exec_div_setSr {s t : State} (hne : s.reg .r0 ≠ 0) (h : exec .div s = .next t) (v : Byte) :
    ∃ u, exec .div (s.setSr v) = .next u ∧ SrAlike 0x03 t u := by
  have hnat : (s.reg .r0).toNat ≠ 0 := fun e => hne (BitVec.eq_of_toNat_eq e)
  rw [exec_div_of_ne_zero s hnat] at h
  obtain rfl := Host.Outcome.next.inj h
  exact ⟨_, exec_div_of_ne_zero (s.setSr v) hnat,
    (((SrAlike.setSr s v).setReg .r2 _).setReg .r3 _).setZ_setN _ _⟩

/-- A handler that does not read sr gives the same state for any other sr, but for the bits of sr
that it does not write. -/
theorem exec_setSr {i : Instr} {s t : State} (hi : i.readsStatus = false)
    (hdiv : i = .div → s.reg .r0 ≠ 0) (h : exec i s = .next t) (v : Byte) :
    ∃ u, exec i (s.setSr v) = .next u ∧ SrAlike i.srWrites t u := by
  cases i with
  | addRR rd _ | subRR rd _ | addRI rd _ | subRI rd _ =>
    obtain rfl := Host.Outcome.next.inj h
    exact ⟨_, rfl, ((SrAlike.setSr s v).setReg rd _).setZNVC _⟩
  | xorRR rd _ | andRR rd _ | orRR rd _ | xorRI rd _ | andRI rd _ | orRI rd _ =>
    obtain rfl := Host.Outcome.next.inj h
    exact ⟨_, rfl, ((SrAlike.setSr s v).setReg rd _).setZ_setN _ _⟩
  | lsl rd _ | lsr rd _ =>
    obtain rfl := Host.Outcome.next.inj h
    exact ⟨_, rfl, ((SrAlike.setSr s v).setReg rd _).setShiftFlags _ _ _⟩
  | mul =>
    obtain rfl := Host.Outcome.next.inj h
    exact ⟨_, rfl, (((SrAlike.setSr s v).setReg .r2 _).setReg .r3 _).setMulFlags _⟩
  | div => exact exec_div_setSr (hdiv rfl) h v
  | popSR => exact ⟨t, h, SrAlike.refl 0xFF t⟩
  | jle _ _ _ | jge _ _ _ | jeq _ _ _ =>
    refine ⟨t.setSr v, ?_, SrAlike.setSr t v⟩
    obtain rfl := Host.Outcome.next.inj h
    rw [State.setSr_branchIf]
    rfl
  | jlz _ | jgz _ | str _ _ | pushSR | mvsSR _ => exact nomatch hi
  | _ =>
    refine ⟨t.setSr v, ?_, SrAlike.setSr t v⟩
    obtain rfl := Host.Outcome.next.inj h
    rfl

/-- Settles O27: the two states that the handler leaves are alike in the bits that it writes. -/
theorem onlyStatusReadersDependOnStatus : Obligations.OnlyStatusReadersDependOnStatus :=
  fun _ _ _ v hi hdiv h => exec_setSr hi hdiv h v

end Sys2Proof.Machine
end

section
/-! A host write between steps (20_memory.md R51; 70_reset_and_hazards.md R228, R231): a handler
that does not read the host's cell runs alike with and without the write, and what it stores goes
over it; and the obligation about it. -/

namespace Sys2Proof.Machine

/-- State u is t but for the host's byte in cell k, which is not seen when k was stored to since. -/
structure HostAlike (k : Nat) (v : Byte) (stored : List Nat) (t u : State) : Prop where
  regs : u.regs = t.regs
  sr : u.sr = t.sr
  sp : u.sp = t.sp
  pc : u.pc = t.pc
  reads : ∀ b, u.memRead b = if phys b = k ∧ k ∉ stored then v else t.memRead b

section
variable {k : Fin Config.memSize} {v : Byte} {stored : List Nat} {s t u : State} {i : Instr}

/-- Right after the host's write. -/
theorem HostAlike.hostWrite (k : Fin Config.memSize) (v : Byte) (t : State) :
    HostAlike k.val v [] t (t.hostWrite k v) where
  regs := rfl
  sr := rfl
  sp := rfl
  pc := rfl
  reads b := by
    rw [State.hostWrite_memRead]
    exact ite_of_iff (and_iff_left List.not_mem_nil).symm _ _

/-- The same store in both states: at its cell both read the stored byte, be it the host's cell or
not. -/
theorem HostAlike.memWrite (h : HostAlike k.val v stored t u) (a : Nat) (x : Byte) :
    HostAlike k.val v (stored ++ [phys a]) (t.memWrite a x) (u.memWrite a x) where
  regs := h.regs
  sr := h.sr
  sp := h.sp
  pc := h.pc
  reads b := by
    have hstored : k.val ∈ stored ++ [phys a] ↔ k.val ∈ stored ∨ k.val = phys a := by
      rw [List.mem_append, List.mem_singleton]
    rw [State.memWrite_memRead, State.memWrite_memRead, h.reads]
    by_cases hb : phys b = phys a
    · rw [if_pos hb, if_pos hb, if_neg]
      exact fun ⟨hbk, hnot⟩ => hnot (hstored.2 (.inr (hbk.symm.trans hb)))
    · rw [if_neg hb, if_neg hb]
      refine ite_of_iff (and_congr_right fun hbk => not_congr ?_) _ _
      have hka : k.val ≠ phys a := fun e => hb (hbk.trans e)
      rw [hstored, or_iff_left hka]

theorem HostAlike.push8 (h : HostAlike k.val v stored t u) (x : Byte) :
    HostAlike k.val v (stored ++ [phys t.sp.toNat]) (t.push8 x) (u.push8 x) := by
  have hwrite := h.memWrite t.sp.toNat x
  rw [State.push8, State.push8, h.sp]
  exact ⟨hwrite.regs, hwrite.sr, rfl, hwrite.pc, hwrite.reads⟩

/-- A read of another cell does not see the host's write. -/
theorem State.hostWrite_memRead_ne (s : State) (v : Byte) {a : Nat} (h : k.val ≠ phys a) :
    (s.hostWrite k v).memRead a = s.memRead a := by
  rw [State.hostWrite_memRead, if_neg h.symm]

theorem State.hostWrite_eaLoad (s : State) (k : Fin Config.memSize) (v d : Byte) :
    (s.hostWrite k v).eaLoad d = s.eaLoad d := rfl

/-! The handlers that read a byte of memory, with the address written out. -/

theorem exec_ldr (rd : Reg) (d : Byte) (s : State) :
    exec (.ldr rd d) s = .next (s.setReg rd (s.memRead (s.eaLoad d))) := rfl

theorem exec_popReg (rd : Reg) (s : State) :
    exec (.popReg rd) s =
      .next ((s.setSp (s.sp + 1)).setReg rd (s.memRead (s.sp + 1).toNat)) := rfl

theorem exec_popSR (s : State) :
    exec .popSR s = .next ((s.setSp (s.sp + 1)).setSr (s.memRead (s.sp + 1).toNat)) := rfl

/-- A handler that neither stores nor reads the host's cell carries the host's write along. -/
theorem exec_hostWrite_of_not_stores (hi : i.storesMemory = false) (hk : k.val ∉ s.cellsRead i)
    (h : exec i s = .next t) (v : Byte) :
    exec i (s.hostWrite k v) = .next (t.hostWrite k v) := by
  cases i with
  | ldr rd d =>
    rw [exec_ldr] at h ⊢
    obtain rfl := Host.Outcome.next.inj h
    rw [State.hostWrite_eaLoad, s.hostWrite_memRead_ne v (List.ne_of_not_mem_cons hk)]
    rfl
  | popReg rd =>
    rw [exec_popReg] at h ⊢
    obtain rfl := Host.Outcome.next.inj h
    rw [State.hostWrite_sp, s.hostWrite_memRead_ne v (List.ne_of_not_mem_cons hk)]
    rfl
  | popSR =>
    rw [exec_popSR] at h ⊢
    obtain rfl := Host.Outcome.next.inj h
    rw [State.hostWrite_sp, s.hostWrite_memRead_ne v (List.ne_of_not_mem_cons hk)]
    rfl
  | popPC =>
    have hlow := s.hostWrite_memRead_ne v (List.ne_of_not_mem_cons hk)
    have hhigh := s.hostWrite_memRead_ne v
      (List.ne_of_not_mem_cons (List.not_mem_of_not_mem_cons hk))
    rw [exec_popPC] at h ⊢
    obtain rfl := Host.Outcome.next.inj h
    rw [State.hostWrite_sp, hlow, hhigh]
    rfl
  | str _ _ | pushReg _ | pushSR | pushPC => exact nomatch hi
  | _ =>
    exact exec_mapAside (fsp := id) (fir := id) (fmem := Memory.write k.val v) (.inl rfl)
      (.inr rfl) h

theorem State.cellsStored_of_not_stores (s : State) (hi : i.storesMemory = false) :
    s.cellsStored i = [] := by
  cases i with
  | str _ _ | pushReg _ | pushSR | pushPC => exact nomatch hi
  | _ => rfl

/-- A handler that does not read the host's cell runs alike with and without the host's write. -/
theorem exec_hostWrite (hk : k.val ∉ s.cellsRead i) (h : exec i s = .next t) (v : Byte) :
    ∃ u, exec i (s.hostWrite k v) = .next u ∧ HostAlike k.val v (s.cellsStored i) t u := by
  have hbefore := HostAlike.hostWrite k v s
  cases hi : i.storesMemory with
  | false =>
    rw [s.cellsStored_of_not_stores hi]
    exact ⟨_, exec_hostWrite_of_not_stores hi hk h v, HostAlike.hostWrite k v t⟩
  | true =>
    cases i with
    | str rd d =>
      obtain rfl := Host.Outcome.next.inj h
      exact ⟨_, rfl, hbefore.memWrite (s.eaStore d) (s.reg rd)⟩
    | pushReg rd =>
      obtain rfl := Host.Outcome.next.inj h
      exact ⟨_, rfl, hbefore.push8 (s.reg rd)⟩
    | pushSR =>
      obtain rfl := Host.Outcome.next.inj h
      exact ⟨_, rfl, hbefore.push8 s.sr⟩
    | pushPC =>
      obtain rfl := Host.Outcome.next.inj h
      exact ⟨_, rfl, (hbefore.push8 _).push8 _⟩
    | _ => exact nomatch hi

/-- Two states alike latch the same word, unless the host's cell holds a byte of it. -/
theorem HostAlike.prefetch_ir (h : HostAlike k.val v stored t u) (hlow : k.val ≠ phys t.pc.toNat)
    (hhigh : k.val ≠ phys (t.pc.toNat + 1)) : u.prefetch.ir = t.prefetch.ir := by
  rw [State.prefetch_ir, State.prefetch_ir, State.fetchWord, State.fetchWord, h.pc, h.reads,
    h.reads, if_neg fun hk => hlow hk.1.symm, if_neg fun hk => hhigh hk.1.symm]

end

/-- Settles O15: the handler runs alike with and without the host's write, and the prefetch reads
what the two handlers left. -/
theorem hostWriteKeepsLatchedInstruction : Obligations.HostWriteKeepsLatchedInstruction := by
  intro s k v
  refine ⟨⟨rfl, rfl, rfl, rfl, rfl, s.hostWrite_memRead k v⟩, ?_⟩
  obtain ⟨t, hexec⟩ := exec_completes (decodeWord s.ir) s
  obtain ⟨u, hexec'⟩ := exec_completes (decodeWord s.ir) (s.hostWrite k v)
  refine ⟨t.prefetch, u.prefetch, step_of_exec hexec, step_of_exec hexec', fun hk => ?_⟩
  obtain ⟨u', hu', halike⟩ := exec_hostWrite hk hexec v
  obtain rfl : u = u' := Host.Outcome.next.inj (hexec'.symm.trans hu')
  refine ⟨halike.regs, halike.sr, halike.sp, congrArg (· + 2) halike.pc, fun hi => ?mem,
    halike.reads, fun hlow hhigh => ?ir⟩
  case mem =>
    have hcarried := exec_hostWrite_of_not_stores hi hk hexec v
    obtain rfl := Host.Outcome.next.inj (hexec'.symm.trans hcarried)
    rfl
  case ir =>
    rw [State.prefetch_pc_sub_two] at hlow hhigh
    exact halike.prefetch_ir hlow hhigh

end Sys2Proof.Machine
end

section
/-! The assembler of the spec (30_encoding.md R72, R73; 44_branch.md R179): each form yields a
well-formed instruction, each range check is one of its field; and the obligation about it. -/

namespace Sys2Proof.Machine

/-! ### The range checks -/

theorem asmD8_eq (d : Int) : asmD8 d = if -128 ≤ d ∧ d ≤ 127 then some d else none := by
  rw [asmD8]
  exact ite_of_iff (fitsD8_iff d) _ _

theorem asmD5_eq (d : Int) : asmD5 d = if -16 ≤ d ∧ d ≤ 15 then some d else none := by
  rw [asmD5]
  exact ite_of_iff (fitsD5_iff d) _ _

theorem asmU8_eq (n : Int) :
    asmU8 n = if 0 ≤ n ∧ n ≤ 255 then some (BitVec.ofNat 8 n.toNat) else none := by
  rw [asmU8]
  split
  · next hn =>
    obtain ⟨hnonneg, -⟩ := hn
    rw [← BitVec.ofInt_natCast, Int.toNat_of_nonneg hnonneg]
  · rfl

/-- Building an instruction from a checked field. -/
theorem map_if_some {α β : Type} (f : α → β) (p : Prop) [Decidable p] (a : α) :
    (if p then some a else none).map f = if p then some (f a) else none := by
  split <;> rfl

theorem asmU8_map (f : Byte → Instr) (n : Int) :
    (asmU8 n).map f = if 0 ≤ n ∧ n ≤ 255 then some (f (BitVec.ofNat 8 n.toNat)) else none := by
  rw [asmU8_eq, map_if_some]

theorem asmD8_map (f : Int → Instr) (d : Int) :
    (asmD8 d).map f = if -128 ≤ d ∧ d ≤ 127 then some (f d) else none := by
  rw [asmD8_eq, map_if_some]

theorem asmD5_map (f : Int → Instr) (d : Int) :
    (asmD5 d).map f = if -16 ≤ d ∧ d ≤ 15 then some (f d) else none := by
  rw [asmD5_eq, map_if_some]

/-- A displacement is a number, or the distance of a label (R179). -/
theorem asmDisp_eq {here : Nat} {d : Int} {o : AsmOperand}
    (h : o = .imm d ∨ ∃ l : Nat, o = .label l ∧ (l : Int) - here = d) :
    asmDisp here o = some d := by
  obtain rfl | ⟨l, rfl, rfl⟩ := h
  · rfl
  · rfl

theorem asmBranch8_eq {here : Nat} {d : Int} {o : AsmOperand} (h : asmDisp here o = some d)
    (f : Int → Instr) :
    asmBranch8 f here [o] = if -128 ≤ d ∧ d ≤ 127 then some (f d) else none := by
  rw [asmBranch8, h, Option.bind_some, asmD8_map]

theorem asmBranch5_eq {here : Nat} {d : Int} {o : AsmOperand} (h : asmDisp here o = some d)
    (f : Reg → Reg → Int → Instr) (rd rs : Reg) :
    asmBranch5 f here [.reg rd, .reg rs, o] =
      if -16 ≤ d ∧ d ≤ 15 then some (f rd rs d) else none := by
  rw [asmBranch5, h, Option.bind_some, asmD5_map]

/-- t = L + 2 is never negative, so only 255 bounds it (R179). -/
theorem asmJA_eq (l : Nat) :
    asmJA [.label l] = if l + 2 ≤ 255 then some (.jmp (BitVec.ofNat 8 (l + 2))) else none := by
  have hnat : ((l : Int) + 2).toNat = l + 2 := by omega
  rw [asmJA, labelTarget, asmU8_map, hnat]
  exact ite_of_iff (by omega) _ _

/-! ### What a form yields is well-formed -/

theorem fitsD8_of_asmD8 {d e : Int} (h : asmD8 d = some e) : fitsD8 e = true := by
  rw [asmD8] at h
  split at h
  · next hfits =>
    obtain rfl := Option.some.inj h
    exact hfits
  · exact nomatch h

theorem fitsD5_of_asmD5 {d e : Int} (h : asmD5 d = some e) : fitsD5 e = true := by
  rw [asmD5] at h
  split at h
  · next hfits =>
    obtain rfl := Option.some.inj h
    exact hfits
  · exact nomatch h

section
variable {ops : List AsmOperand} {here : Nat} {i : Instr}

theorem asmBinary_wf {rr : Reg → Reg → Instr} {ri : Reg → Byte → Instr}
    (hrr : ∀ rd rs, WellFormed (rr rd rs)) (hri : ∀ rd b, WellFormed (ri rd b))
    (h : asmBinary rr ri ops = some i) : WellFormed i := by
  unfold asmBinary at h
  split at h
  · obtain rfl := Option.some.inj h
    exact hrr _ _
  · obtain ⟨b, -, rfl⟩ := Option.map_eq_some_iff.1 h
    exact hri _ b
  · exact nomatch h

theorem asmShift_wf {f : Reg → Byte → Instr} (hf : ∀ rd b, WellFormed (f rd b))
    (h : asmShift f ops = some i) : WellFormed i := by
  unfold asmShift at h
  split at h
  · obtain ⟨b, -, rfl⟩ := Option.map_eq_some_iff.1 h
    exact hf _ b
  · exact nomatch h

theorem asmMemory_wf {f : Reg → Byte → Instr} (hf : ∀ rd b, WellFormed (f rd b))
    (h : asmMemory f ops = some i) : WellFormed i := by
  unfold asmMemory at h
  split at h
  · obtain ⟨b, -, rfl⟩ := Option.map_eq_some_iff.1 h
    exact hf _ b
  · exact nomatch h

theorem asmBranch8_wf {f : Int → Instr} (hf : ∀ d, fitsD8 d = true → WellFormed (f d))
    (h : asmBranch8 f here ops = some i) : WellFormed i := by
  unfold asmBranch8 at h
  split at h
  · obtain ⟨e, he, rfl⟩ := Option.map_eq_some_iff.1 h
    obtain ⟨d, -, hd⟩ := Option.bind_eq_some_iff.1 he
    exact hf e (fitsD8_of_asmD8 hd)
  · exact nomatch h

theorem asmBranch5_wf {f : Reg → Reg → Int → Instr}
    (hf : ∀ rd rs d, fitsD5 d = true → WellFormed (f rd rs d))
    (h : asmBranch5 f here ops = some i) : WellFormed i := by
  unfold asmBranch5 at h
  split at h
  · obtain ⟨e, he, rfl⟩ := Option.map_eq_some_iff.1 h
    obtain ⟨d, -, hd⟩ := Option.bind_eq_some_iff.1 he
    exact hf _ _ e (fitsD5_of_asmD5 hd)
  · exact nomatch h

theorem asmNone_wf {j : Instr} (hj : WellFormed j) (h : asmNone j ops = some i) :
    WellFormed i := by
  unfold asmNone at h
  split at h
  · obtain rfl := Option.some.inj h
    exact hj
  · exact nomatch h

theorem asmReg_wf {f : Reg → Instr} (hf : ∀ rd, WellFormed (f rd))
    (h : asmReg f ops = some i) : WellFormed i := by
  unfold asmReg at h
  split at h
  · obtain rfl := Option.some.inj h
    exact hf _
  · exact nomatch h

theorem asmPush_wf (h : asmPush ops = some i) : WellFormed i := by
  unfold asmPush at h
  split at h
  case h_4 => exact nomatch h
  all_goals
    obtain rfl := Option.some.inj h
    rfl

theorem asmPop_wf (h : asmPop ops = some i) : WellFormed i := by
  unfold asmPop at h
  split at h
  case h_4 => exact nomatch h
  all_goals
    obtain rfl := Option.some.inj h
    rfl

theorem asmMov_wf (h : asmMov ops = some i) : WellFormed i := by
  unfold asmMov at h
  split at h
  · obtain rfl := Option.some.inj h
    rfl
  · exact nomatch h

theorem asmMvs_wf (h : asmMvs ops = some i) : WellFormed i := by
  unfold asmMvs at h
  split at h
  case h_4 => exact nomatch h
  all_goals
    obtain rfl := Option.some.inj h
    rfl

theorem asmJmp_wf (h : asmJmp ops = some i) : WellFormed i := by
  unfold asmJmp at h
  split at h
  · obtain ⟨b, -, rfl⟩ := Option.map_eq_some_iff.1 h
    rfl
  · exact nomatch h

theorem asmB_wf (h : asmB here ops = some i) : WellFormed i := by
  unfold asmB at h
  split at h
  · obtain ⟨e, he, rfl⟩ := Option.map_eq_some_iff.1 h
    exact fitsD8_of_asmD8 he
  · exact nomatch h

theorem asmJA_wf (h : asmJA ops = some i) : WellFormed i := by
  unfold asmJA at h
  split at h
  · obtain ⟨b, -, rfl⟩ := Option.map_eq_some_iff.1 h
    rfl
  · exact nomatch h

/-- Every mnemonic is one of the forms above. -/
theorem assemble_wf {m : Mnemonic} (h : assemble here m ops = some i) : WellFormed i := by
  cases m with
  | add | sub | xor | and | or => exact asmBinary_wf (fun _ _ => rfl) (fun _ _ => rfl) h
  | lsl | lsr => exact asmShift_wf (fun _ _ => rfl) h
  | mul | div | nop | halt => exact asmNone_wf rfl h
  | ldr | str => exact asmMemory_wf (fun _ _ => rfl) h
  | push => exact asmPush_wf h
  | pop => exact asmPop_wf h
  | mov => exact asmMov_wf h
  | mvs => exact asmMvs_wf h
  | jmp => exact asmJmp_wf h
  | jrl | jlz | jgz =>
    refine asmBranch8_wf (fun _ hd => ?_) h
    exact hd
  | jle | jge | jeq =>
    refine asmBranch5_wf (fun _ _ _ hd => ?_) h
    exact hd
  | clr | inc | dec => exact asmReg_wf (fun _ => rfl) h
  | b => exact asmB_wf h
  | ja => exact asmJA_wf h

end

/-- Settles O6: what every form yields is well-formed, and each mnemonic with an operand of a
bounded field is its form, which ends in the check of the field. -/
theorem assemblerRejectsOutOfRange : Obligations.AssemblerRejectsOutOfRange := by
  refine ⟨fun _ _ _ _ h => assemble_wf h, fun here d o ho => ?branches, fun here l => ?b,
    fun _ l => asmJA_eq l, fun here rd n => ?bytes⟩
  case branches =>
    have hdisp := asmDisp_eq ho
    refine ⟨?d8, ?d5⟩
    case d8 =>
      simp only [List.forall_mem_cons]
      exact ⟨asmBranch8_eq hdisp .jrl, asmBranch8_eq hdisp .jlz, asmBranch8_eq hdisp .jgz,
        List.forall_mem_nil _⟩
    case d5 =>
      simp only [List.forall_mem_cons]
      exact ⟨asmBranch5_eq hdisp .jle, asmBranch5_eq hdisp .jge, asmBranch5_eq hdisp .jeq,
        List.forall_mem_nil _⟩
  case b => exact asmD8_map .jrl ((l : Int) - here)
  case bytes =>
    refine ⟨?imm, ?memory, asmU8_map .jmp n⟩
    case imm =>
      simp only [List.forall_mem_cons]
      exact ⟨asmU8_map (.addRI rd) n, asmU8_map (.subRI rd) n, asmU8_map (.xorRI rd) n,
        asmU8_map (.andRI rd) n, asmU8_map (.orRI rd) n, asmU8_map (.lsl rd) n,
        asmU8_map (.lsr rd) n, List.forall_mem_nil _⟩
    case memory =>
      simp only [List.forall_mem_cons]
      exact ⟨asmU8_map (.ldr rd) n, asmU8_map (.str rd) n, List.forall_mem_nil _⟩

end Sys2Proof.Machine
end
